-- ==== Sys2Proof/Word.lean ====
section
/-! DEFINITION. The two word types of the block: the byte of the buffers and the 32-bit word of the
command and response interfaces (spec 00_scope R11, 30_encoding R70). -/

namespace Sys2Proof

/-- A byte of a buffer or of a send: 8 bits, bit 7 most significant (00 R11). -/
abbrev Byte := BitVec 8

/-- A word of a command packet or a response: 32 bits, bit 31 most significant (30 R70). -/
abbrev Word := BitVec 32

end Sys2Proof
end

