-- ==== Sys2Proof/Syntax.lean ====
section
/-! DEFINITION. The host commands as abstract syntax (spec 00_scope R15, 30_encoding R70): one
constructor per row of spec/opcode_table.json, with the operands of the abstract rules. -/

namespace Sys2Proof

/-- The protocol variant: StandardEncoding or ExtendedEncoding (00 R2, R9). -/
inductive Variant where
  | standard
  | extended
deriving DecidableEq, Repr, Inhabited

/-- A colour `(r, g, b)` in input order (00 R16). The abstract rules take any integers as channels;
only 0 to 255 fit a colour word (30 R77, 90 C6). -/
structure Color where
  r : Int
  g : Int
  b : Int
deriving DecidableEq, Repr, Inhabited

/-- A command packet: its 32-bit words, word 0 the header (30 R70). -/
abbrev Packet := List Word

/-- The host commands. The operands are those of the abstract rules: any integer LED count, any
rational intensity, any integer channels; `Instr.wellFormed` says which of them a packet can carry. -/
inductive Instr where
  /-- `CONFIGURE(ledCount, intensity, variant)` (42 R126). -/
  | configure (ledCount : Int) (intensity : Rat) (variant : Variant)
  /-- `FILL(colors, startSlot)` (41 R111, R119). -/
  | fill (colors : List Color) (startSlot : Nat)
  /-- `SHOW(colors)` (42 R128). -/
  | showFrame (colors : List Color)
deriving DecidableEq, Repr, Inhabited

end Sys2Proof
end

