-- ==== Sys2Proof/WellFormed.lean ====
section
/-! DEFINITION. Which commands a packet can carry: the operand ranges of spec 30_encoding R74, R77
and R78. -/

namespace Sys2Proof

/-- A count or slot fits its unsigned 16-bit field (30 R78). -/
def fitsField16 (n : Int) : Bool := decide (0 ≤ n) && decide (n < 65536)

/-- A channel fits its unsigned 8-bit field (30 R77). -/
def fitsChannel (c : Int) : Bool := decide (0 ≤ c) && decide (c < 256)

/-- A colour fits a colour word (30 R77). -/
def Color.fits (c : Color) : Bool := fitsChannel c.r && fitsChannel c.g && fitsChannel c.b

/-- The integer `floor(q * 65536)` that stands for the intensity `q` in a packet (30 R74, R83). -/
def intensityFixed (q : Rat) : Int := q.num * 65536 / (q.den : Int)

/-- `q` is `I / 65536` for some unsigned 32-bit `I` (30 R74). -/
def fitsIntensity (q : Rat) : Bool :=
  decide (0 ≤ q.num) && decide (65536 % q.den = 0) && decide (intensityFixed q < 4294967296)

/-- The command has a packet: every operand fits its field. -/
def Instr.wellFormed : Instr → Bool
  | .configure ledCount intensity _ => fitsField16 ledCount && fitsIntensity intensity
  | .fill colors startSlot => colors.all Color.fits && fitsField16 startSlot
  | .showFrame colors => colors.all Color.fits

end Sys2Proof
end

