-- ==== Sys2Proof/Decode.lean ====
section
/-! DEFINITION. The decoder of command packets (spec 30_encoding R70 to R81), total on every list of
words, and after it the encoder written from the same tables. -/

namespace Sys2Proof

/-- Why `decode` maps a packet to Invalid (30 R79, R80). All of them answer IllegalCommand. -/
inductive Invalid where
  /-- No word at all (30 R79, last sentence). -/
  | emptyPacket
  /-- Opcode 0x00 or 0x04 to 0xFF (30 R72). -/
  | reservedOpcode
  /-- A reserved bit of the header word is set (30 R71). -/
  | reservedHeaderBits
  /-- A CONFIGURE packet whose length is not 2 words (30 R79). -/
  | packetLength
  /-- Bits 31:24 of a colour word are not 0 (30 R77). -/
  | reservedColourBits
deriving DecidableEq, Repr

/-- `opcode = word0[31:24]` (30 R72). -/
def opcodeOf (header : Word) : BitVec 8 := header.extractLsb' 24 8

/-- The variant bit: 0 is Standard, 1 is Extended (30 R78). -/
def variantOfBit (b : Bool) : Variant := if b then .extended else .standard

/-- The colour a colour word holds (30 R77). -/
def decodeColor (w : Word) : Except Invalid Color :=
  if w.extractLsb' 24 8 = 0#8 then
    .ok { r := (w.extractLsb' 16 8).toNat, g := (w.extractLsb' 8 8).toNat,
          b := (w.extractLsb' 0 8).toNat }
  else .error .reservedColourBits

/-- The colours of the payload words, in list order (30 R77). -/
def decodeColors : List Word → Except Invalid (List Color)
  | [] => .ok []
  | w :: ws =>
    match decodeColor w with
    | .error e => .error e
    | .ok c =>
      match decodeColors ws with
      | .error e => .error e
      | .ok cs => .ok (c :: cs)

/-- The CONFIGURE row of `Decode` (30 R71 format HC, R74, R79). -/
def decodeConfigure (header : Word) (payload : List Word) : Except Invalid Instr :=
  if header.extractLsb' 17 7 = 0#7 then
    match payload with
    | [w] => .ok (.configure (header.extractLsb' 0 16).toNat (mkRat w.toNat 65536)
        (variantOfBit (header.getLsbD 16)))
    | _ => .error .packetLength
  else .error .reservedHeaderBits

/-- The FILL row of `Decode` (30 R71 format HF, R79). -/
def decodeFill (header : Word) (payload : List Word) : Except Invalid Instr :=
  if header.extractLsb' 16 8 = 0#8 then
    match decodeColors payload with
    | .error e => .error e
    | .ok colors => .ok (.fill colors (header.extractLsb' 0 16).toNat)
  else .error .reservedHeaderBits

/-- The SHOW row of `Decode` (30 R71 format HS, R79). -/
def decodeShow (header : Word) (payload : List Word) : Except Invalid Instr :=
  if header.extractLsb' 0 24 = 0#24 then
    match decodeColors payload with
    | .error e => .error e
    | .ok colors => .ok (.showFrame colors)
  else .error .reservedHeaderBits

/-- `Decode(p)` (30 R79). -/
def decode : Packet → Except Invalid Instr
  | [] => .error .emptyPacket
  | header :: payload =>
    match (opcodeOf header).toNat with
    | 1 => decodeConfigure header payload
    | 2 => decodeFill header payload
    | 3 => decodeShow header payload
    | _ => .error .reservedOpcode

/-- The packet that opcode_table.json's numbering of bits describes: word `k` is bits `32k + 31` to
`32k`, and a CONFIGURE given only its header gets the payload word 0 the table does not number. -/
def packetOfTableWord (nbits w : Nat) : Packet :=
  let low := w % 2 ^ nbits
  let words := (List.range (max 1 ((nbits + 31) / 32))).map fun k =>
    BitVec.ofNat 32 (low >>> (32 * k))
  match words with
  | [header] => if opcodeOf header = 1#8 then [header, 0#32] else [header]
  | _ => words

/-- The command the decoder reads from an instruction numbered as the opcode table numbers it. -/
def decodeTableWord (nbits w : Nat) : Option Instr :=
  match decode (packetOfTableWord nbits w) with
  | .ok i => some i
  | .error _ => none

/-! ## The encoder -/

/-- The variant bit of the CONFIGURE header (30 R71). -/
def bitOfVariant : Variant → BitVec 1
  | .standard => 0#1
  | .extended => 1#1

/-- The colour word of a colour: `0 ## r ## g ## b` (30 R77). -/
def encodeColor (c : Color) : Word :=
  0#8 ++ BitVec.ofInt 8 c.r ++ BitVec.ofInt 8 c.g ++ BitVec.ofInt 8 c.b

/-- The CONFIGURE header, format HC (30 R71). -/
def headerConfigure (ledCount : BitVec 16) (variant : Variant) : Word :=
  0x01#8 ++ 0#7 ++ bitOfVariant variant ++ ledCount

/-- The FILL header, format HF (30 R71). -/
def headerFill (startSlot : BitVec 16) : Word := 0x02#8 ++ 0#8 ++ startSlot

/-- The SHOW header, format HS (30 R71). -/
def headerShow : Word := 0x03#8 ++ 0#24

/-- The intensity word of an intensity: `floor(q * 65536)` (30 R74, R83). -/
def encodeIntensity (q : Rat) : Word := BitVec.ofInt 32 (q.num * 65536 / (q.den : Int))

/-- The packet of a well-formed command (30 R71, R74, R77); an operand that does not fit its field keeps
its low bits (assumption 11). -/
def encode : Instr → Packet
  | .configure ledCount intensity variant =>
    [headerConfigure (BitVec.ofInt 16 ledCount) variant, encodeIntensity intensity]
  | .fill colors startSlot => headerFill (BitVec.ofNat 16 startSlot) :: colors.map encodeColor
  | .showFrame colors => headerShow :: colors.map encodeColor

end Sys2Proof
end

