-- ==== Sys2Proof/Config.lean ====
section
/-! DEFINITION. What an implementation fixes and what stays free: the transport's answers
(spec 42_driver R134, 92 D12). -/

namespace Sys2Proof

/-- The transport's answer to one send (42 R134). -/
inductive SendAnswer where
  | ok
  | failed
deriving DecidableEq, Repr, Inhabited

/-- FREE VALUE (assumption 4). The answer of the transport to send number `k`, for every
send whose answer `State.answers` does not already hold. It has no body: nothing constrains it. -/
opaque Config.transportAnswer (k : Nat) : SendAnswer

end Sys2Proof
end

