-- ==== Sys2Proof/Machine/State.lean ====
section
/-! DEFINITION. The state of the encoder block as plain data (spec 10_state R20 to R34), the reasons a
step can stop, and the state after hardware reset (R33, 70 R170). -/

namespace Sys2Proof.Machine

/-- A byte buffer of `size` bytes, offsets `0` to `size - 1` (20 R40). `cells` lists, by strictly rising
offset, the bytes that are not 0x00: an unlisted offset inside the buffer reads as 0x00, the value
the buffers are allocated with (42 R126, assumption 10); an offset outside does not exist. -/
structure Memory where
  size : Nat
  cells : List Host.Cell
deriving DecidableEq, Repr

/-- The configuration registers `CFG`, written once by CONFIGURE (10 R22). -/
structure Cfg where
  ledCount : Nat
  intensity : Rat
  variant : Variant
deriving DecidableEq, Repr

/-- A Driver instance: what exists exactly while `phase = Ready` (10 R21, 93 U8). -/
structure Driver where
  /-- `CFG` (10 R22). -/
  cfg : Cfg
  /-- The TransportBuffer (10 R27). -/
  tb : Memory
  /-- The ResetBuffer, present only for Extended (10 R28). -/
  rb : Option Memory
deriving DecidableEq, Repr

/-- An entry of `TXLOG`: what a send offered, with the transport's answer as its tag (10 R29). -/
inductive TxEvent where
  | sent (bytes : List Byte)
  | failed (bytes : List Byte)
deriving DecidableEq, Repr

/-- The lifecycle phase (10 R21); `State.phase` reads it off the state. -/
inductive Phase where
  | unconfigured
  | ready
deriving DecidableEq, Repr

/-- The state: the block's five items (10 R20: `phase`, `CFG`, `TB`, `RB` in `driver`; `TXLOG`), then
the model's own record of the interfaces and the parameters of a step (10 R34). -/
structure State where
  /-- `none` while `phase = Unconfigured`; the instance while `phase = Ready` (10 R21, assumption 1). -/
  driver : Option Driver
  /-- `TXLOG`, oldest first (10 R29). -/
  txlog : List TxEvent
  /-- MODEL'S OWN: the response words delivered since reset, oldest first (30 R82, assumption 3). -/
  responses : List Word
  /-- MODEL'S OWN: the packets presented at the command interface and not yet taken, oldest first
  (20 R54, assumption 2). -/
  cmdIn : List Packet
  /-- MODEL'S OWN: the transport's answers that are already decided, next first (42 R134, assumption 4). -/
  answers : List SendAnswer
  /-- MODEL'S OWN: how many sends were made, the index of the free value `Config.transportAnswer`
  (assumption 4). -/
  sends : Nat
  /-- MODEL'S OWN: the parameter `MAXLEDS`, changed by no step (00 R10, assumption 5). -/
  maxLeds : Nat
deriving DecidableEq, Repr

/-- Why the machine stops with a fault. No state that meets `State.Inv` takes one. -/
inductive Fault where
  /-- Raised by `Memory.read` and `Memory.write` on a range that leaves the buffer, an address the spec
  says does not exist (00 R13, 20 R57, assumption 6). Safe: the model stops where the spec gives no
  behaviour. -/
  | bufferRange
  /-- Raised by `Driver.sendBuffers` when an Extended instance has no ResetBuffer, a state the spec
  excludes (10 R28, assumption 6). Safe: the model stops where the spec gives no behaviour. -/
  | resetBufferAbsent
deriving DecidableEq, Repr

/-- Why an instruction is refused. -/
inductive Refusal where
  /-- Answered by `exec` alone, for an instruction that has no meaning yet; no arm does so. Safe. -/
  | notModelled (mnemonic : String)
deriving DecidableEq, Repr

/-- The machine right after hardware reset (10 R33, 70 R170): no instance, empty `TXLOG`. The model's own
fields start with nothing presented, answered or sent, and `MAXLEDS` at its default (00 R10). -/
def State.reset : State where
  driver := none
  txlog := []
  responses := []
  cmdIn := []
  answers := []
  sends := 0
  maxLeds := 65535

end Sys2Proof.Machine
end

