-- ==== Sys2Proof/Machine/Flags.lean ====
section
/-! DEFINITION. What a command reports. The block has no flags (spec 10_state R30): the outcome of a
command is its response word (30_encoding R82) and nothing of it is stored in the block. -/

namespace Sys2Proof.Machine

/-- The error kinds of the block (60 R145). -/
inductive ErrorKind where
  | configurationError
  | overflowError
  | transportError
  | illegalCommand
deriving DecidableEq, Repr

/-- The status code of an error (30 R82, 60 R151). -/
def ErrorKind.code : ErrorKind → BitVec 8
  | .configurationError => 0x01#8
  | .overflowError => 0x02#8
  | .transportError => 0x03#8
  | .illegalCommand => 0x04#8

/-- The response word: `status` in 31:24, 0 in 23:16, `value` in 15:0 (30 R82). -/
def responseWord (status : BitVec 8) (value : BitVec 16) : Word := status ++ 0#8 ++ value

/-- The response OK with a value from 0 to 65535: FILL's next slot, 0 for CONFIGURE and SHOW (30 R82); a
larger number keeps its low 16 bits (assumption 11). -/
def okResponse (value : Nat) : Word := responseWord 0x00#8 (BitVec.ofNat 16 value)

/-- The response of a command that raised `e`: its code and value 0 (60 R150). -/
def errorResponse (e : ErrorKind) : Word := responseWord e.code 0#16

end Sys2Proof.Machine
end

