-- ==== Sys2Proof/Machine/Operands.lean ====
section
/-! DEFINITION. The values derived from `CFG` (spec 00_scope R8, 10_state R23) and the effective
addresses of slots and channels (20_memory R43, 41_frame_buffer R118). -/

namespace Sys2Proof.Machine

/-- `BPC`: bytes emitted per channel (00 R8). -/
def bpc : Variant → Nat
  | .standard => 4
  | .extended => 5

/-- `CHANNELS` per LED (00 R8). -/
def channels : Nat := 3

/-- `BPL`: bytes per LED, `BPC * CHANNELS` (00 R8). -/
def bpl (v : Variant) : Nat := bpc v * channels

/-- `OFF`: the pad byte (00 R8, 41 R115). -/
def offByte : Variant → Byte
  | .standard => 0x11#8
  | .extended => 0x00#8

/-- `RESETLEN`: length of the ResetBuffer (00 R8). -/
def resetLen : Nat := 150

/-- `L = CFG.ledCount * BPL`: length of the TransportBuffer (10 R23). -/
def Cfg.length (cfg : Cfg) : Nat := cfg.ledCount * bpl cfg.variant

/-- Offset of the first byte of a slot (10 R27, 41 R118). -/
def slotOffset (v : Variant) (slot : Nat) : Nat := slot * bpl v

/-- `addr(s, j, k) = s * BPL + j * BPC + k`: byte `k` of wire channel `j` of slot `s` (20 R43). -/
def channelOffset (v : Variant) (slot channel byte : Nat) : Nat :=
  slotOffset v slot + channel * bpc v + byte

/-- The slot an offset belongs to, `a div BPL` (20 R41). -/
def slotOf (v : Variant) (offset : Nat) : Nat := offset / bpl v

end Sys2Proof.Machine
end

