-- ==== Sys2Proof/Machine/Ops.lean ====
section
/-! DEFINITION. The named operations over the state: reading and writing a buffer (spec 00_scope R13),
answering a command, raising an error (60_exceptions R150) and sending (42_driver R134). -/

namespace Sys2Proof.Machine

/-! ## Buffers -/

/-- The canonical form of a buffer: offsets strictly rise, lie inside it, and no listed byte is 0x00. -/
abbrev Memory.wf (m : Memory) : Prop :=
  m.cells.Pairwise (fun x y => x.1 < y.1) ∧ ∀ c ∈ m.cells, c.1 < m.size ∧ c.2 ≠ 0#8

/-- A buffer as CONFIGURE allocates it: every byte 0x00 (42 R126). -/
def Memory.zeroed (size : Nat) : Memory := { size := size, cells := [] }

/-- The byte a list of cells gives offset `a`; 0x00 where it lists none. -/
def lookupCell : List Host.Cell → Nat → Byte
  | [], _ => 0#8
  | c :: cs, a => if c.1 = a then c.2 else lookupCell cs a

/-- The cells for bytes `bs` from offset `a` up, 0x00 bytes left out. -/
def cellsOf (a : Nat) : List Byte → List Host.Cell
  | [] => []
  | b :: bs => if b = 0#8 then cellsOf (a + 1) bs else (a, b) :: cellsOf (a + 1) bs

/-- `n` bytes from offset `a` up, lowest offset first. -/
def bytesFrom (cells : List Host.Cell) (a : Nat) : Nat → List Byte
  | 0 => []
  | n + 1 => lookupCell cells a :: bytesFrom cells (a + 1) n

/-- `MemRead(addr, n)` (00 R13): requires `addr + n <= size`. -/
def Memory.read (m : Memory) (addr n : Nat) : Except Fault (List Byte) :=
  if addr + n ≤ m.size then .ok (bytesFrom m.cells addr n) else .error .bufferRange

/-- The buffer with bytes `bs` at offsets `addr` up and every other byte as it was. -/
def Memory.overwrite (m : Memory) (addr : Nat) (bs : List Byte) : Memory :=
  { m with cells := m.cells.filter (fun c => decide (c.1 < addr)) ++ cellsOf addr bs
              ++ m.cells.filter (fun c => decide (addr + bs.length ≤ c.1)) }

/-- `MemWrite(addr, len bs, bs)` (00 R13): requires `addr + len bs <= size`; no other byte changes. -/
def Memory.write (m : Memory) (addr : Nat) (bs : List Byte) : Except Fault Memory :=
  if addr + bs.length ≤ m.size then .ok (m.overwrite addr bs) else .error .bufferRange

/-- The byte at one offset, `none` where the offset does not exist: the test bench's read (10 R27). -/
def Memory.peek (m : Memory) (a : Nat) : Option Byte :=
  if a < m.size then some (lookupCell m.cells a) else none

/-- All bytes of a buffer, lowest offset first. -/
def Memory.bytes (m : Memory) : List Byte := bytesFrom m.cells 0 m.size

/-! ## Views of the state -/

/-- `phase` (10 R21). -/
def State.phase (s : State) : Phase :=
  match s.driver with
  | none => .unconfigured
  | some _ => .ready

/-- `TB[a]` as the test bench reads it between commands; `none` where no such byte exists (10 R27). -/
def State.peek (s : State) (a : Nat) : Option Byte :=
  match s.driver with
  | none => none
  | some d => d.tb.peek a

/-! ## Responses and errors -/

/-- Deliver a response word (30 R82). -/
def State.respond (s : State) (w : Word) : State := { s with responses := s.responses ++ [w] }

/-- TAKING AN ERROR, `raise E` (60 R150): the command ends, what was written stays, and the response
carries the error's code with value 0. Nothing is saved, no mode changes and control goes nowhere,
so there is no return operation beside it (60 R155). -/
def State.raise (s : State) (e : ErrorKind) : State := s.respond (errorResponse e)

/-- How an internal operation ends before its last step: it raised an error of the spec before any
write, or the model stops. -/
inductive Stop where
  | raised (e : ErrorKind)
  | stuck (f : Fault)
deriving DecidableEq, Repr

/-! ## The transport interface -/

/-- The transport's answer to the `k`-th send from now on (42 R134): an answer already decided, else
the free value for that send. -/
def State.answer (s : State) (k : Nat) : SendAnswer :=
  match s.answers[k]? with
  | some a => a
  | none => Config.transportAnswer (s.sends + k)

/-- The `TXLOG` entry of a send (42 R134). -/
def txEvent (a : SendAnswer) (bytes : List Byte) : TxEvent :=
  match a with
  | .ok => .sent bytes
  | .failed => .failed bytes

/-- The state after one send: one entry is appended to `TXLOG` and the answer is used up. -/
def State.logSend (s : State) (bytes : List Byte) : State :=
  { s with
    txlog := s.txlog ++ [txEvent (s.answer 0) bytes]
    answers := s.answers.tail
    sends := s.sends + 1 }

/-- `TxSend(bytes)` (42 R134): the state after it and the transport's answer. -/
def txSend (bytes : List Byte) (s : State) : State × SendAnswer := (s.logSend bytes, s.answer 0)

/-- The sends of one command in order; the first that fails is the last made (42 R128, R137). -/
def sendAll : List (List Byte) → State → State × SendAnswer
  | [], s => (s, .ok)
  | bytes :: rest, s =>
    match txSend bytes s with
    | (s', .ok) => sendAll rest s'
    | (s', .failed) => (s', .failed)

/-! ## Hardware reset -/

/-- The reset input (70 R170): the block's own state and its response history as after reset; what
the outside holds (packets presented, the transport, `MAXLEDS`) is not the block's to clear. It is no
input of `step` (assumption 8). -/
def State.hardwareReset (s : State) : State := { s with driver := none, txlog := [], responses := [] }

end Sys2Proof.Machine
end

