-- ==== Sys2Proof/Machine/CommandPort.lean ====
section
/-! DEFINITION. The command interface (spec 30_encoding R70, 20_memory R54): how a packet is taken, what
an Invalid one does, and what the block does with none to take. -/

namespace Sys2Proof.Machine

/-- Take the oldest packet presented; a later one waits (20 R54). -/
def State.takePacket (s : State) : Option (Packet × State) :=
  match s.cmdIn with
  | [] => none
  | p :: rest => some (p, { s with cmdIn := rest })

/-- No packet to take: the block is idle and keeps all state (60 R161). -/
def State.idle (s : State) : State := s

/-- An Invalid packet is not executed, whatever makes it invalid: it raises IllegalCommand
(30 R80, 60 R149). -/
def State.rejectPacket (s : State) : Invalid → State
  | .emptyPacket | .reservedOpcode | .reservedHeaderBits | .packetLength | .reservedColourBits =>
    s.raise .illegalCommand

/-- The host presents a packet behind those that wait (20 R54). -/
def State.present (s : State) (p : Packet) : State := { s with cmdIn := s.cmdIn ++ [p] }

/-- A packet presented so that the very next step takes it. -/
def State.presentFirst (s : State) (p : Packet) : State := { s with cmdIn := p :: s.cmdIn }

end Sys2Proof.Machine
end

