-- ==== Sys2Proof/Machine/ChannelEncoder.lean ====
section
/-! DEFINITION. The ChannelEncoder family (spec 40_channel_encoder): SCALE, ENC_STD, ENC_EXT,
ENC_CHANNEL, ENC_COLOR, and the test bench's reference decoders DEC_STD, DEC_EXT. All are pure. -/

namespace Sys2Proof.Machine

/-- `floor(c * q)` for an integer and a rational, exact (40 R91, R92): the numerator's product over the
positive denominator, rounded down. -/
def floorProduct (c : Int) (q : Rat) : Int := c * q.num / (q.den : Int)

/-- `SCALE(c, q) = floor(c * q) mod 256` (40 R91): the low 8 bits in two's complement. -/
def scale (c : Int) (q : Rat) : Byte := BitVec.ofInt 8 (floorProduct c q)

/-- `LUT` (00 R8, 30 R62). -/
def lut (group : BitVec 2) : Byte :=
  match group.toNat with
  | 0 => 0x11#8
  | 1 => 0x13#8
  | 2 => 0x31#8
  | _ => 0x33#8

/-- `ENC_STD(v)` (40 R93). -/
def encStd (v : Byte) : List Byte :=
  [lut (v.extractLsb' 6 2), lut (v.extractLsb' 4 2), lut (v.extractLsb' 2 2), lut (v.extractLsb' 0 2)]

/-- `ONE` and `ZERO`, the 5-bit symbols of a source bit (00 R8, 30 R63). -/
def symbol (bit : Bool) : BitVec 5 := if bit then 0b11110#5 else 0b10000#5

/-- The 40-bit symbol stream `S_0 ## ... ## S_7` of a channel value, bit 7 first (30 R64, 40 R95). -/
def symbolStream (v : Byte) : BitVec 40 :=
  symbol (v.getLsbD 7) ++ symbol (v.getLsbD 6) ++ symbol (v.getLsbD 5) ++ symbol (v.getLsbD 4)
    ++ symbol (v.getLsbD 3) ++ symbol (v.getLsbD 2) ++ symbol (v.getLsbD 1) ++ symbol (v.getLsbD 0)

/-- `ENC_EXT(v)` (40 R95). -/
def encExt (v : Byte) : List Byte :=
  let w := symbolStream v
  [w.extractLsb' 32 8, w.extractLsb' 24 8, w.extractLsb' 16 8, w.extractLsb' 8 8, w.extractLsb' 0 8]

/-- `ENC_CHANNEL(v)` for the configured variant (40 R97). -/
def encChannel : Variant → Byte → List Byte
  | .standard, v => encStd v
  | .extended, v => encExt v

/-- `ENC_COLOR((r, g, b))`: green, then red, then blue (40 R98). -/
def encColor (cfg : Cfg) (c : Color) : List Byte :=
  encChannel cfg.variant (scale c.g cfg.intensity)
    ++ encChannel cfg.variant (scale c.r cfg.intensity)
    ++ encChannel cfg.variant (scale c.b cfg.intensity)

/-! ## Reference decoders (test bench only) -/

/-- The inverse of `LUT` (40 R101). -/
def invLut (b : Byte) : Option (BitVec 2) :=
  match b.toNat with
  | 0x11 => some 0#2
  | 0x13 => some 1#2
  | 0x31 => some 2#2
  | 0x33 => some 3#2
  | _ => none

/-- `DEC_STD(bs)` (40 R101). The rule's operand is a list of 4 bytes; DESIGN CHOICE (assumption 11): a list
of any other length decodes to `none`. -/
def decStd : List Byte → Option Byte
  | [b0, b1, b2, b3] =>
    match invLut b0, invLut b1, invLut b2, invLut b3 with
    | some g0, some g1, some g2, some g3 => some (g0 ++ g1 ++ g2 ++ g3)
    | _, _, _, _ => none
  | _ => none

/-- The source bit of a 5-bit symbol, `none` where it is neither ONE nor ZERO (40 R102). -/
def invSymbol (s : BitVec 5) : Option Bool :=
  if s = 0b11110#5 then some true else if s = 0b10000#5 then some false else none

/-- Decode the `n` symbols at stream bits `5n - 1` down to 0, most significant first, after the value
`v` decoded so far (40 R102). -/
def decSymbols (w : BitVec 40) (v : Byte) : Nat → Option Byte
  | 0 => some v
  | n + 1 =>
    match invSymbol (w.extractLsb' (5 * n) 5) with
    | none => none
    | some bit => decSymbols w ((v <<< 1) ||| (BitVec.ofBool bit).setWidth 8) n

/-- `DEC_EXT(bs)` (40 R102). The rule's operand is a list of 5 bytes; DESIGN CHOICE (assumption 11): a list
of any other length decodes to `none`. -/
def decExt : List Byte → Option Byte
  | [b0, b1, b2, b3, b4] => decSymbols (b0 ++ b1 ++ b2 ++ b3 ++ b4) 0#8 8
  | _ => none

/-- The decoder of the configured variant (40 R101, R102), on lists of `BPC` bytes; on other lengths as
assumption 11 says. -/
def decChannel : Variant → List Byte → Option Byte
  | .standard, bs => decStd bs
  | .extended, bs => decExt bs

end Sys2Proof.Machine
end

