-- ==== Sys2Proof/Machine/FrameBuffer.lean ====
section
/-! DEFINITION. The FrameBuffer family (spec 41_frame_buffer): FILL, PAD, FILL_AND_PAD, and FILL as a
host command. -/

namespace Sys2Proof.Machine

/-- The colour loop of FILL from byte offset `off`: the buffer and the offset reached (41 R111). -/
def fillLoop (cfg : Cfg) (off : Nat) : List Color → Memory → Except Fault (Memory × Nat)
  | [], m => .ok (m, off)
  | c :: cs, m =>
    match m.write off (encColor cfg c) with
    | .error f => .error f
    | .ok m' => fillLoop cfg (off + bpl cfg.variant) cs m'

/-- `FILL(colors, startSlot)` (41 R111): OverflowError before any write (R112), else the instance with
the slots written and the next slot. -/
def Driver.fill (d : Driver) (colors : List Color) (startSlot : Nat) : Except Stop (Driver × Nat) :=
  if d.cfg.ledCount < startSlot + colors.length then .error (.raised .overflowError)
  else
    match fillLoop d.cfg (slotOffset d.cfg.variant startSlot) colors d.tb with
    | .error f => .error (.stuck f)
    | .ok (tb, off) => .ok ({ d with tb := tb }, slotOf d.cfg.variant off)

/-- `PAD(k)` for `k <= CFG.ledCount` (41 R115; past it assumption 11): every byte from slot `k` to the end becomes OFF. The loop's single-byte writes
are made as one write of the same bytes, which nothing can tell apart (20 R48, R49, assumption 9). -/
def Driver.pad (d : Driver) (k : Nat) : Except Stop Driver :=
  match d.tb.write (slotOffset d.cfg.variant k)
      (List.replicate (d.cfg.length - slotOffset d.cfg.variant k) (offByte d.cfg.variant)) with
  | .error f => .error (.stuck f)
  | .ok tb => .ok { d with tb := tb }

/-- `FILL_AND_PAD(colors)` (41 R116). -/
def Driver.fillAndPad (d : Driver) (colors : List Color) : Except Stop Driver :=
  match d.fill colors 0 with
  | .error e => .error e
  | .ok (d', k) => d'.pad k

/-- FILL as a host command (41 R119). -/
def execFill (colors : List Color) (startSlot : Nat) (s : State) : Host.Outcome State Fault Refusal :=
  match s.driver with
  | none => .next (s.raise .illegalCommand)
  | some d =>
    match d.fill colors startSlot with
    | .error (.raised e) => .next (s.raise e)
    | .error (.stuck f) => .fault f
    | .ok (d', k) => .next (State.respond { s with driver := some d' } (okResponse k))

end Sys2Proof.Machine
end

