-- ==== Sys2Proof/Machine/Driver.lean ====
section
/-! DEFINITION. The Driver family (spec 42_driver): CONFIGURE and SHOW. -/

namespace Sys2Proof.Machine

/-- The ResetBuffer an instance of the variant has (10 R28, 92 D25). -/
def resetBufferOf : Variant → Option Memory
  | .standard => none
  | .extended => some (Memory.zeroed resetLen)

/-- The instance as CONFIGURE allocates it, before the initial `show([])` (42 R126, 70 R171). -/
def Driver.allocate (ledCount : Nat) (intensity : Rat) (variant : Variant) : Driver :=
  let cfg : Cfg := { ledCount := ledCount, intensity := intensity, variant := variant }
  { cfg := cfg, tb := Memory.zeroed cfg.length, rb := resetBufferOf variant }

/-- What a frame hands to the transport, in order: the whole TransportBuffer, then for Extended the
whole ResetBuffer (42 R128 steps 3 and 4, 20 R46). -/
def Driver.sendBuffers (d : Driver) : Except Fault (List (List Byte)) :=
  match d.tb.read 0 d.cfg.length with
  | .error f => .error f
  | .ok frame =>
    match d.cfg.variant, d.rb with
    | .standard, _ => .ok [frame]
    | .extended, none => .error .resetBufferAbsent
    | .extended, some rb =>
      match rb.read 0 resetLen with
      | .error f => .error f
      | .ok reset => .ok [frame, reset]

/-- The frame of `show(colors)`, written and read back for the transport (42 R128 step 2 and the
operand of step 3). -/
def Driver.frame (d : Driver) (colors : List Color) : Except Stop (Driver × List (List Byte)) :=
  match d.fillAndPad colors with
  | .error e => .error e
  | .ok d' =>
    match d'.sendBuffers with
    | .error f => .error (.stuck f)
    | .ok buffers => .ok (d', buffers)

/-- Housekeeping, step 5 of SHOW: no effect (42 R133). -/
def State.housekeeping (s : State) : State := s

/-- The end of CONFIGURE (42 R126): the sends of the initial frame; the instance exists only if all
of them were answered ok (60 R153). -/
def State.commission (s : State) (d : Driver) (buffers : List (List Byte)) : State :=
  match sendAll buffers s with
  | (s', .ok) => State.respond { s' with driver := some d } (okResponse 0)
  | (s', .failed) => s'.raise .transportError

/-- CONFIGURE (42 R126, R127). -/
def execConfigure (ledCount : Int) (intensity : Rat) (variant : Variant) (s : State) :
    Host.Outcome State Fault Refusal :=
  match s.driver with
  | some _ => .next (s.raise .illegalCommand)
  | none =>
    if ledCount ≤ 0 ∨ (s.maxLeds : Int) < ledCount then .next (s.raise .configurationError)
    else
      match (Driver.allocate ledCount.toNat intensity variant).frame [] with
      | .error (.raised e) => .next (s.raise e)
      | .error (.stuck f) => .fault f
      | .ok (d, buffers) => .next (s.commission d buffers)

/-- The end of SHOW (42 R128 steps 3 to 5): the sends; the new frame stays in the buffer whatever the
transport answers (60 R153). -/
def State.transmit (s : State) (d : Driver) (buffers : List (List Byte)) : State :=
  match sendAll buffers { s with driver := some d } with
  | (s', .ok) => s'.housekeeping.respond (okResponse 0)
  | (s', .failed) => s'.raise .transportError

/-- SHOW (42 R128). -/
def execShowFrame (colors : List Color) (s : State) : Host.Outcome State Fault Refusal :=
  match s.driver with
  | none => .next (s.raise .illegalCommand)
  | some d =>
    if d.cfg.ledCount < colors.length then .next (s.raise .overflowError)
    else
      match d.frame colors with
      | .error (.raised e) => .next (s.raise e)
      | .error (.stuck f) => .fault f
      | .ok (d', buffers) => .next (s.transmit d' buffers)

end Sys2Proof.Machine
end

