-- ==== Sys2Proof/Machine/Dispatch.lean ====
section
/-! DEFINITION. One arm per host command (spec 42_driver R136). -/

namespace Sys2Proof.Machine

def exec (i : Instr) (s : State) : Host.Outcome State Fault Refusal :=
  match i with
  | .configure ledCount intensity variant => Sys2Proof.Machine.execConfigure ledCount intensity variant s
  | .fill colors startSlot => Sys2Proof.Machine.execFill colors startSlot s
  | .showFrame colors => Sys2Proof.Machine.execShowFrame colors s

end Sys2Proof.Machine
end

