-- ==== Sys2Proof/Machine/Step.lean ====
section
/-! DEFINITION. The only step the block has (spec 42_driver R136): take the oldest packet presented,
decode it, run it to its response. -/

namespace Sys2Proof.Machine

/-- One command packet, from start to response (42 R136). With no packet presented the block is idle and
keeps all state (60 R161). -/
def step (s : State) : Host.Outcome State Fault Refusal :=
  match s.takePacket with
  | none => .next s.idle
  | some (p, s') =>
    match decode p with
    | .error e => .next (s'.rejectPacket e)
    | .ok i => exec i s'

/-- `s` with the instruction of the opcode table's word presented as the next packet. -/
def State.withFetchWord (s : State) (nbits w : Nat) : State :=
  s.presentFirst (packetOfTableWord nbits w)

end Sys2Proof.Machine
end

