-- ==== Sys2Proof/Machine/Assembler.lean ====
section
/-! DEFINITION. The assembler's text form of a command (spec 30_encoding R83, R84): one command per line,
defaults filled in, numerals that do not fit rejected. It is the host's tool; no step calls it. -/

namespace Sys2Proof.Machine

/-- One line of assembler text as syntax (30 R83, R84). Omitted options are `none`. -/
inductive AsmLine where
  | configure (ledCount : Nat) (intensity : Option Rat) (variant : Option Variant)
  | fill (startSlot : Option Nat) (colors : List (Nat × Nat × Nat))
  | showFrame (colors : List (Nat × Nat × Nat))
  | clear
deriving DecidableEq, Repr

/-- Why the assembler rejects a line (30 R83). -/
inductive AsmError where
  /-- The text is no line of the grammar. -/
  | notALine
  /-- A count or slot above 65535. -/
  | countTooLarge
  /-- An intensity below 0 or at least 65536. -/
  | intensityOutOfRange
  /-- A channel above 255. -/
  | channelTooLarge
deriving DecidableEq, Repr

/-! ## From a line to its packet -/

/-- The default intensity 1.0 (30 R83). -/
def defaultIntensity : Rat := 1

/-- The intensity the packet holds for `q`: `floor(q * 65536) / 65536` (30 R74, R83). -/
def packetIntensity (q : Rat) : Rat := mkRat (q.num * 65536 / (q.den : Int)) 65536

/-- A colour of three numerals. -/
def asmColor (c : Nat × Nat × Nat) : Color := { r := c.1, g := c.2.1, b := c.2.2 }

/-- No channel is above 255 (30 R83). -/
def channelsFit (colors : List (Nat × Nat × Nat)) : Bool :=
  colors.all fun c => decide (c.1 < 256) && decide (c.2.1 < 256) && decide (c.2.2 < 256)

/-- The command a line stands for, or why it is rejected (30 R83); `CLEAR` is SHOW with no colours
(30 R84). -/
def AsmLine.command : AsmLine → Except AsmError Instr
  | .configure n q v =>
    let q := q.getD defaultIntensity
    if 65536 ≤ n then .error .countTooLarge
    else if q.num < 0 ∨ 65536 * (q.den : Int) ≤ q.num then .error .intensityOutOfRange
    else .ok (.configure n (packetIntensity q) (v.getD .standard))
  | .fill slot colors =>
    if 65536 ≤ slot.getD 0 then .error .countTooLarge
    else if channelsFit colors then .ok (.fill (colors.map asmColor) (slot.getD 0))
    else .error .channelTooLarge
  | .showFrame colors =>
    if channelsFit colors then .ok (.showFrame (colors.map asmColor)) else .error .channelTooLarge
  | .clear => .ok (.showFrame [])

/-- The packet of a line. -/
def AsmLine.assemble (line : AsmLine) : Except AsmError Packet :=
  match line.command with
  | .error e => .error e
  | .ok i => .ok (encode i)

/-! ## From text to a line -/

/-- A token: a run of other characters, or one of `, = @ ( ) /`. -/
inductive Token where
  | word (chars : List Char)
  | mark (c : Char)
deriving DecidableEq, Repr

/-- The characters that are tokens of their own (30 R83). -/
def isMark (c : Char) : Bool := c = ',' || c = '=' || c = '@' || c = '(' || c = ')' || c = '/'

/-- The word read so far, if any, as a token (its characters are held in reverse). -/
def closeWord (acc : List Char) : List Token := if acc.isEmpty then [] else [.word acc.reverse]

/-- Cut a line into tokens; blanks separate and are dropped (assumption 7). -/
def tokens : List Char → List Char → List Token
  | [], acc => closeWord acc
  | c :: cs, acc =>
    if c = ' ' || c = '\t' then closeWord acc ++ tokens cs []
    else if isMark c then closeWord acc ++ .mark c :: tokens cs []
    else tokens cs (c :: acc)

/-- The value of a digit character below 16. -/
def digitValue (c : Char) : Option Nat :=
  let n := c.toNat
  if 48 ≤ n ∧ n ≤ 57 then some (n - 48)
  else if 65 ≤ n ∧ n ≤ 70 then some (n - 55)
  else if 97 ≤ n ∧ n ≤ 102 then some (n - 87)
  else none

/-- Digits of a base, most significant first, after the value read so far. -/
def digits (base : Nat) : List Char → Nat → Option Nat
  | [], v => some v
  | c :: cs, v =>
    match digitValue c with
    | none => none
    | some d => if d < base then digits base cs (v * base + d) else none

/-- A whole number in decimal digits, at least one. -/
def wholeDecimal (chars : List Char) : Option Nat :=
  if chars.isEmpty then none else digits 10 chars 0

/-- An unsigned decimal or `0x` numeral: a count, a slot or a channel (30 R83). -/
def numeral : List Char → Option Nat
  | ['0', 'x'] => none
  | '0' :: 'x' :: ds => digits 16 ds 0
  | ds => wholeDecimal ds

/-- A non-negative decimal numeral for `<q>`, with or without a fraction part; never a `0x` numeral
(30 R83). DESIGN CHOICE (assumption 7): a point has a digit before it and a digit after it, so `.5` and
`1.` are rejected. -/
def decimal (chars : List Char) : Option Rat :=
  let whole := chars.takeWhile (· ≠ '.')
  match chars.dropWhile (· ≠ '.') with
  | [] => (wholeDecimal chars).map fun n => mkRat n 1
  | _ :: part =>
    if whole.isEmpty || part.isEmpty then none
    else (digits 10 (whole ++ part) 0).map fun n => mkRat n (10 ^ part.length)

/-- The value of `<q>`: a decimal numeral or a fraction `a/b` (30 R83), with the tokens after it.
DESIGN CHOICE (assumption 7): `a` and `b` are whole decimal numerals, and `b` is not 0. -/
def intensityValue : List Token → Option (Rat × List Token)
  | .word a :: .mark '/' :: .word b :: rest =>
    match wholeDecimal a, wholeDecimal b with
    | some x, some y => if y = 0 then none else some (mkRat x y, rest)
    | _, _ => none
  | .word a :: rest => (decimal a).map fun q => (q, rest)
  | _ => none

/-- The option `, intensity=<q>` if it comes next (30 R83). -/
def intensityOption : List Token → Option (Option Rat × List Token)
  | .mark ',' :: .word key :: .mark '=' :: rest =>
    if key = "intensity".toList then (intensityValue rest).map fun r => (some r.1, r.2)
    else some (none, .mark ',' :: .word key :: .mark '=' :: rest)
  | ts => some (none, ts)

/-- The option `, variant=STD|EXT` if it comes next, and then the end of the line (30 R83). -/
def variantOption : List Token → Option (Option Variant)
  | [] => some none
  | [.mark ',', .word key, .mark '=', .word v] =>
    if key = "variant".toList then
      if v = "STD".toList then some (some .standard)
      else if v = "EXT".toList then some (some .extended)
      else none
    else none
  | _ => none

/-- `<color>*` up to the end of the line (30 R83). -/
def colorList : List Token → Option (List (Nat × Nat × Nat))
  | [] => some []
  | .mark '(' :: .word r :: .mark ',' :: .word g :: .mark ',' :: .word b :: .mark ')' :: rest =>
    match numeral r, numeral g, numeral b, colorList rest with
    | some r, some g, some b, some cs => some ((r, g, b) :: cs)
    | _, _, _, _ => none
  | _ => none

/-- A CONFIGURE line after its keyword (30 R83). -/
def configureLine : List Token → Option AsmLine
  | .word n :: rest =>
    match numeral n, intensityOption rest with
    | some n, some (q, rest) => (variantOption rest).map fun v => .configure n q v
    | _, _ => none
  | _ => none

/-- A FILL line after its keyword (30 R83). -/
def fillLine : List Token → Option AsmLine
  | .mark '@' :: .word n :: rest =>
    match numeral n, colorList rest with
    | some n, some cs => some (.fill (some n) cs)
    | _, _ => none
  | ts => (colorList ts).map fun cs => .fill none cs

/-- A line of text as syntax (30 R83, R84). -/
def parseLine (text : List Char) : Option AsmLine :=
  match tokens text [] with
  | .word key :: rest =>
    if key = "CONFIGURE".toList then configureLine rest
    else if key = "FILL".toList then fillLine rest
    else if key = "SHOW".toList then (colorList rest).map .showFrame
    else if key = "CLEAR".toList && rest.isEmpty then some .clear
    else none
  | _ => none

/-- The packet of a line of assembler text (30 R83, R84, R85). -/
def assembleText (text : String) : Except AsmError Packet :=
  match parseLine text.toList with
  | none => .error .notALine
  | some line => line.assemble

end Sys2Proof.Machine
end

