-- ==== Sys2Proof/Machine/Wire.lean ====
section
/-! DEFINITION. What the sends mean on the wire (spec 20_memory R45, R46; 30_encoding R60; 93 U4). -/

namespace Sys2Proof.Machine

/-- The bits of a byte in the order the transport shifts them out, bit 7 first (20 R45). -/
def byteBits (b : Byte) : List Bool :=
  [b.getLsbD 7, b.getLsbD 6, b.getLsbD 5, b.getLsbD 4, b.getLsbD 3, b.getLsbD 2, b.getLsbD 1,
    b.getLsbD 0]

/-- The bit stream of a send: bytes in list order, bit 7 of each first (20 R45, R46). -/
def wireBits (bytes : List Byte) : List Bool := bytes.flatMap byteBits

/-- The wire pattern of one protocol bit: the nibble `0001` or `0011` in Standard (30 R62), the symbol
`10000` or `11110` in Extended (30 R63). -/
def protocolBit : Variant → Bool → List Bool
  | .standard, bit => [false, false, bit, true]
  | .extended, bit => [true, bit, bit, bit, false]

/-- The byte list a send offered (10 R29). -/
def TxEvent.bytes : TxEvent → List Byte
  | .sent bs => bs
  | .failed bs => bs

/-- What may have left the transport: all bytes of a `Sent` entry, any prefix of a `Failed` one
(93 U4), entries in order. -/
def mayReachWire : List TxEvent → List Byte → Prop
  | [], out => out = []
  | .sent bs :: log, out => ∃ tail, out = bs ++ tail ∧ mayReachWire log tail
  | .failed bs :: log, out => ∃ pre tail, pre <+: bs ∧ out = pre ++ tail ∧ mayReachWire log tail

end Sys2Proof.Machine
end

