-- ==== Sys2Proof/Safety.lean ====
section
/-! DEFINITION. What counts as a safe state and a safe run (spec 10_state R31, R32; 20_memory R57;
70_reset_and_hazards R174), in the terms the statements use. -/

namespace Sys2Proof.Machine

/-- The instance is as construction leaves it and every command keeps it: a legal LED count (10 R22),
a TransportBuffer of exactly `ledCount * BPL` bytes in canonical form (10 R31 item 1), and the
ResetBuffer of its variant, unwritten (10 R28, R31 item 4). -/
abbrev Driver.wf (d : Driver) (maxLeds : Nat) : Prop :=
  1 ≤ d.cfg.ledCount ∧ d.cfg.ledCount ≤ maxLeds ∧ d.tb.size = d.cfg.length ∧ d.tb.wf
    ∧ d.rb = resetBufferOf d.cfg.variant

/-- The invariant of the machine: `MAXLEDS` in its range (00 R10) and any instance well-formed. -/
abbrev State.Inv (s : State) : Prop :=
  1 ≤ s.maxLeds ∧ s.maxLeds ≤ 65535 ∧ ∀ d ∈ s.driver, d.wf s.maxLeds

/-- The bytes of one slot (10 R27). -/
def Driver.slotBytes (d : Driver) (slot : Nat) : List Byte :=
  bytesFrom d.tb.cells (slotOffset d.cfg.variant slot) (bpl d.cfg.variant)

/-- The slot is coded: its bytes are `ENC_COLOR(c)` for some colour (10 R32). -/
def Driver.slotCoded (d : Driver) (slot : Nat) : Prop := ∃ c : Color, d.slotBytes slot = encColor d.cfg c

/-- The slot is off: all its bytes are OFF (10 R32). -/
def Driver.slotOff (d : Driver) (slot : Nat) : Prop :=
  d.slotBytes slot = List.replicate (bpl d.cfg.variant) (offByte d.cfg.variant)

/-- Every slot of the instance, if there is one, is coded or off (10 R32). -/
def State.slotsCodedOrOff (s : State) : Prop :=
  ∀ d ∈ s.driver, ∀ slot < d.cfg.ledCount, d.slotCoded slot ∨ d.slotOff slot

/-- The frame of a list of colours: their encodings, then OFF to the end of the buffer (41 R117). -/
def frameOf (cfg : Cfg) (colors : List Color) : List Byte :=
  colors.flatMap (encColor cfg)
    ++ List.replicate ((cfg.ledCount - colors.length) * bpl cfg.variant) (offByte cfg.variant)

/-- The ResetBuffer's contents (10 R28). -/
def resetBytes : List Byte := List.replicate resetLen 0x00#8

/-- PAD as the spec's loop writes it, one byte a time in ascending offset (41 R115): `n` bytes `off` from
offset `a` up. -/
def padLoop (off : Byte) (a : Nat) : Nat → Memory → Except Fault Memory
  | 0, m => .ok m
  | n + 1, m =>
    match m.write a [off] with
    | .error f => .error f
    | .ok m' => padLoop off (a + 1) n m'

/-- Wire channel `j` of a colour, `j` from 0 to 2: green, red, blue (20 R43); from 3 up as 2
(assumption 11). -/
def wireChannel (c : Color) : Nat → Int
  | 0 => c.g
  | 1 => c.r
  | _ => c.b

/-- The transport answers ok to every send of one frame of the variant (42 R128 steps 3 and 4). -/
def State.sendsSucceed (s : State) (v : Variant) : Prop :=
  s.answer 0 = .ok ∧ (v = .extended → s.answer 1 = .ok)

/-- The `TXLOG` entries of a frame sent without failure (42 R130). -/
def sentFrame (v : Variant) (frame : List Byte) : List TxEvent :=
  match v with
  | .standard => [.sent frame]
  | .extended => [.sent frame, .sent resetBytes]

/-- `t` has used up the next `n` answers of `s`: the model's own record after `n` sends (assumption 4). -/
def State.leftAfterSends (t s : State) (n : Nat) : Prop :=
  t.sends = s.sends + n ∧ t.answers = s.answers.drop n

/-- Run all packets presented, one step each (70 R174): the state after the last response. -/
def State.runPresented (s : State) : Host.Outcome State Fault Refusal :=
  Host.Core.run Sys2Proof.core s.cmdIn.length s

end Sys2Proof.Machine
end

