-- ==== Sys2Proof/Certificates/Slice0/Obligations.lean ====
section
/-! DEFINITION. The statements for the provers, each citing the rules of spec/ it rests on. A statement
about `exec` or `step` holds in every state its premises admit, not only in states a run reaches. How the
statements read the interfaces is the model's own: a packet is taken from `State.cmdIn` (assumption 2), the
response to a command is the word appended to `State.responses` (assumption 3), the transport's answer to
the `k`-th send from now is `State.answer k`, which is a free value once the decided answers are used up
(assumption 4), and MAXLEDS is `State.maxLeds` (assumption 5). No statement rests on a value of the free
value. -/

open Sys2Proof Sys2Proof.Machine

/-! ## Reset -/

/-- 70 R170: after hardware reset the phase is Unconfigured, there is no instance (no `CFG`, `TB`, `RB`)
and `TXLOG` is empty, in `State.reset` and after the reset input alike; no step of any state ends an
instance. -/
def Obligations.ResetAloneEndsAnInstance : Prop :=
  State.reset.phase = .unconfigured ∧ State.reset.driver = none ∧ State.reset.txlog = []
    ∧ (∀ s : State, s.hardwareReset.phase = .unconfigured ∧ s.hardwareReset.driver = none
        ∧ s.hardwareReset.txlog = [])
    ∧ ∀ s t : State, step s = .next t → s.phase = .ready → t.phase = .ready

/-- 10 R31, R33: the invariants hold at reset. -/
def Obligations.ResetMeetsTheInvariants : Prop := State.reset.Inv ∧ State.reset.slotsCodedOrOff

/-! ## Encoding -/

/-- 30 R71 to R79: every command a packet can carry comes back from its packet. -/
def Obligations.DecodeInvertsEncode : Prop :=
  ∀ i : Instr, i.wellFormed = true → decode (encode i) = .ok i

/-- 30 R71 to R79: a packet that decodes is the packet of exactly that command, so no bit of a legal
packet is dropped and every decoded operand fits its field. -/
def Obligations.LegalPacketIsItsCommandsEncoding : Prop :=
  ∀ (p : Packet) (i : Instr), decode p = .ok i → i.wellFormed = true ∧ encode i = p

/-- 95 section 6: words written out from 30 R71 to R78 decode to the commands they stand for. -/
def Obligations.SpecWordsDecodeAsWritten : Prop :=
  decode [0x01010004#32, 0x00008000#32] = .ok (.configure 4 (mkRat 1 2) .extended)
    ∧ decode [0x0100FFFF#32, 0x00000000#32] = .ok (.configure 65535 0 .standard)
    ∧ decode [0x02000001#32, 0x00FF0000#32] = .ok (.fill [⟨255, 0, 0⟩] 1)
    ∧ decode [0x0200FFFF#32] = .ok (.fill [] 65535)
    ∧ decode [0x03000000#32, 0x00FF0000#32, 0x0000FF00#32] = .ok (.showFrame [⟨255, 0, 0⟩, ⟨0, 255, 0⟩])

/-- 30 R80: exactly the encodings the rule lists are illegal (with the empty packet of R79); an illegal
packet changes no state but the response, and so does a legal one in the wrong phase. -/
def Obligations.IllegalPacketsAreNotExecuted : Prop :=
  (∀ p : Packet, (∃ e, decode p = .error e) ↔
    p = [] ∨ ∃ h ws, p = h :: ws ∧
      ((h.extractLsb' 24 8 ≠ 1#8 ∧ h.extractLsb' 24 8 ≠ 2#8 ∧ h.extractLsb' 24 8 ≠ 3#8)
        ∨ (h.extractLsb' 24 8 = 1#8 ∧ (h.extractLsb' 17 7 ≠ 0#7 ∨ p.length ≠ 2))
        ∨ (h.extractLsb' 24 8 = 2#8 ∧ h.extractLsb' 16 8 ≠ 0#8)
        ∨ (h.extractLsb' 24 8 = 3#8 ∧ h.extractLsb' 0 24 ≠ 0#24)
        ∨ (h.extractLsb' 24 8 ≠ 1#8 ∧ ∃ w ∈ ws, w.extractLsb' 24 8 ≠ 0#8)))
  ∧ (∀ (s : State) (p : Packet) (rest : List Packet) (e : Invalid), s.cmdIn = p :: rest →
      decode p = .error e →
      step s = .next { s with cmdIn := rest, responses := s.responses ++ [0x04000000#32] })
  ∧ (∀ (s : State) (n : Int) (q : Rat) (v : Variant), s.phase = .ready →
      exec (.configure n q v) s = .next { s with responses := s.responses ++ [0x04000000#32] })
  ∧ (∀ (s : State) (colors : List Color) (k : Nat), s.phase = .unconfigured →
      exec (.fill colors k) s = .next { s with responses := s.responses ++ [0x04000000#32] }
      ∧ exec (.showFrame colors) s = .next { s with responses := s.responses ++ [0x04000000#32] })

/-- 30 R85, with R83 and R84: every assembler line and response word the rule lists. -/
def Obligations.AssemblerExamplesOfTheSpec : Prop :=
  assembleText "CONFIGURE 2" = .ok [0x01000002#32, 0x00010000#32]
    ∧ assembleText "CONFIGURE 4, intensity=0.5, variant=EXT" = .ok [0x01010004#32, 0x00008000#32]
    ∧ assembleText "CONFIGURE 3, intensity=1.5" = .ok [0x01000003#32, 0x00018000#32]
    ∧ assembleText "SHOW (255,0,0) (0,255,0)" = .ok [0x03000000#32, 0x00FF0000#32, 0x0000FF00#32]
    ∧ assembleText "FILL @1 (255,0,0)" = .ok [0x02000001#32, 0x00FF0000#32]
    ∧ assembleText "FILL (10,20,30)" = .ok [0x02000000#32, 0x000A141E#32]
    ∧ assembleText "CLEAR" = .ok [0x03000000#32]
    ∧ okResponse 0 = 0x00000000#32 ∧ okResponse 2 = 0x00000002#32
    ∧ errorResponse .configurationError = 0x01000000#32
    ∧ errorResponse .overflowError = 0x02000000#32
    ∧ errorResponse .transportError = 0x03000000#32
    ∧ errorResponse .illegalCommand = 0x04000000#32

/-- 30 R83: what the assembler emits for a line decodes to the line's command; a CONFIGURE line's packet
holds `floor(q * 65536)`, its defaults are 1.0 and Standard, and only lines whose numerals fit pass. -/
def Obligations.AssembledLinesDecodeToTheirCommands : Prop :=
  (∀ (line : AsmLine) (p : Packet), line.assemble = .ok p →
    ∃ i, line.command = .ok i ∧ i.wellFormed = true ∧ decode p = .ok i)
  ∧ (∀ (n : Nat) (q : Option Rat) (v : Option Variant) (p : Packet),
      (AsmLine.configure n q v).assemble = .ok p →
      n < 65536 ∧ 0 ≤ q.getD 1 ∧ q.getD 1 < 65536
        ∧ p = [headerConfigure (BitVec.ofNat 16 n) (v.getD .standard),
               BitVec.ofInt 32 ⌊q.getD 1 * 65536⌋])
  ∧ (∀ (n : Nat) (q : Option Rat) (v : Option Variant), n < 65536 → 0 ≤ q.getD 1 → q.getD 1 < 65536 →
      ∃ p, (AsmLine.configure n q v).assemble = .ok p)

/-! ## The step -/

/-- 42 R136, 20 R54: step takes the oldest packet presented and runs the command it decodes to on the
state without that packet; an Invalid one is answered IllegalCommand. With none presented it keeps the
state, which is the model's choice (assumption 2). -/
def Obligations.StepRunsTheDecodedCommand : Prop :=
  (∀ (s : State) (p : Packet) (rest : List Packet) (i : Instr), s.cmdIn = p :: rest → decode p = .ok i →
      step s = exec i { s with cmdIn := rest })
  ∧ (∀ (s : State) (p : Packet) (rest : List Packet) (e : Invalid), s.cmdIn = p :: rest →
      decode p = .error e → step s = .next (State.raise { s with cmdIn := rest } .illegalCommand))
  ∧ (∀ s : State, s.cmdIn = [] → step s = .next s)

/-- The opcode table's words reach exec: a table word that decodes is run by the very next step. -/
def Obligations.TableWordIsRunByTheNextStep : Prop :=
  ∀ (s : State) (nbits w : Nat) (i : Instr), decodeTableWord nbits w = some i →
    step (s.withFetchWord nbits w) = exec i s

/-- 30 R70, R82: a packet taken is answered with exactly one response word; bits 23:16 are 0; the status
is one of the five codes; the value is the next slot of a FILL that answers OK and 0 otherwise. -/
def Obligations.EveryPacketIsAnsweredOnce : Prop :=
  ∀ (s t : State) (p : Packet) (rest : List Packet), s.Inv → s.cmdIn = p :: rest → step s = .next t →
    t.cmdIn = rest ∧ ∃ w : Word, t.responses = s.responses ++ [w]
      ∧ w.extractLsb' 16 8 = 0#8
      ∧ w.extractLsb' 24 8 ∈ [0x00#8, 0x01#8, 0x02#8, 0x03#8, 0x04#8]
      ∧ (∀ colors k, decode p = .ok (.fill colors k) → w.extractLsb' 24 8 = 0#8 →
          (w.extractLsb' 0 16).toNat = k + colors.length)
      ∧ ((w.extractLsb' 24 8 ≠ 0#8 ∨ ∀ colors k, decode p ≠ .ok (.fill colors k)) →
          w.extractLsb' 0 16 = 0#16)

/-- 70 R174, 20 R51: with a transport that answers every send, a finite list of packets runs to its last
response, one response a packet, and leaves the block quiescent in a state that meets the invariant.
42 R131 and 70 R174 make the end of a run conditional on each send being answered; the model's transport
always answers (assumption 4), so the statement says nothing of one that does not. That any number of
packets may wait is the model's choice (assumption 2). -/
def Obligations.EveryRunOfPacketsCompletes : Prop :=
  ∀ s : State, s.Inv → ∃ t, s.runPresented = .next t ∧ t.cmdIn = [] ∧ t.Inv
    ∧ t.responses.length = s.responses.length + s.cmdIn.length ∧ s.txlog <+: t.txlog

/-! ## ChannelEncoder -/

/-- 40 R91: `SCALE(c, q) = floor(c * q) mod 256`, for every integer and every rational. -/
def Obligations.ScaleIsFloorOfProductModulo256 : Prop :=
  ∀ (c : Int) (q : Rat), ((scale c q).toNat : Int) = ⌊(c : Rat) * q⌋ % 256

/-- 40 R92: with a packet's intensity SCALE is a 40-bit product shifted right by 16 and masked; SCALE by 1
is `c mod 256`; SCALE is monotone while the product stays a byte. -/
def Obligations.ScaleIsExactFixedPoint : Prop :=
  (∀ (c : BitVec 8) (i : BitVec 32),
      c.toNat * i.toNat < 2 ^ 40
      ∧ (scale c.toNat (mkRat i.toNat 65536)).toNat = (c.toNat * i.toNat) >>> 16 &&& 0xFF)
  ∧ (∀ c : Int, ((scale c 1).toNat : Int) = c % 256)
  ∧ (∀ (c d : Int) (q : Rat), 0 ≤ q → 0 ≤ c → c ≤ d → ⌊(d : Rat) * q⌋ ≤ 255 →
      (scale c q).toNat ≤ (scale d q).toNat)

/-- 40 R94: length, injectivity, byte values and the byte formula of ENC_STD. -/
def Obligations.StandardEncodingLaws : Prop :=
  (∀ v : Byte, (encStd v).length = 4)
  ∧ (∀ v w : Byte, encStd v = encStd w → v = w)
  ∧ (∀ v : Byte, ∀ b ∈ encStd v, b ∈ [0x11#8, 0x13#8, 0x31#8, 0x33#8])
  ∧ (∀ v : Byte, ∀ k < 4, (encStd v)[k]? =
      some (BitVec.ofNat 8 (0x11 + 0x20 * (v.getLsbD (7 - 2 * k)).toNat
        + 0x02 * (v.getLsbD (6 - 2 * k)).toNat)))

/-- 30 R64, 40 R96: length, the five byte formulas and no zero byte of ENC_EXT. -/
def Obligations.ExtendedEncodingLaws : Prop :=
  (∀ v : Byte, encExt v =
    [BitVec.ofNat 8 (0x84 + 0x70 * (v.getLsbD 7).toNat + 0x03 * (v.getLsbD 6).toNat),
     BitVec.ofNat 8 (0x21 + 0x80 * (v.getLsbD 6).toNat + 0x1C * (v.getLsbD 5).toNat),
     BitVec.ofNat 8 (0x08 + 0xE0 * (v.getLsbD 4).toNat + 0x07 * (v.getLsbD 3).toNat),
     BitVec.ofNat 8 (0x42 + 0x38 * (v.getLsbD 2).toNat + 0x01 * (v.getLsbD 1).toNat),
     BitVec.ofNat 8 (0x10 + 0xC0 * (v.getLsbD 1).toNat + 0x0E * (v.getLsbD 0).toNat)])
  ∧ (∀ v : Byte, (encExt v).length = 5 ∧ ∀ b ∈ encExt v, b ≠ 0x00#8)

/-- 40 R101: DEC_STD gives `v` exactly on ENC_STD of `v`, and nothing on a list with a byte outside the
table. For lists that are not 4 bytes long this is the model's choice (assumption 11). -/
def Obligations.StandardDecoderInvertsTheEncoder : Prop :=
  (∀ (bs : List Byte) (v : Byte), decStd bs = some v ↔ bs = encStd v)
  ∧ (∀ bs : List Byte, (∃ b ∈ bs, b ∉ [0x11#8, 0x13#8, 0x31#8, 0x33#8]) → decStd bs = none)

/-- 40 R102: DEC_EXT gives `v` exactly on ENC_EXT of `v`, so never on a pad. For lists that are not 5 bytes
long this is the model's choice (assumption 11). -/
def Obligations.ExtendedDecoderInvertsTheEncoder : Prop :=
  (∀ (bs : List Byte) (v : Byte), decExt bs = some v ↔ bs = encExt v)
  ∧ decExt (List.replicate 5 0x00#8) = none

/-- 40 R98, R97: a colour is encoded green, red, blue, each scaled first, by the variant's encoder; at
intensity 0 every colour encodes like (0,0,0), whose bytes are those the rule gives at any intensity; then
the rules' examples. -/
def Obligations.ColorIsEncodedGreenRedBlue : Prop :=
  (∀ (cfg : Cfg) (r g b : Int), encColor cfg ⟨r, g, b⟩ =
    encChannel cfg.variant (scale g cfg.intensity) ++ encChannel cfg.variant (scale r cfg.intensity)
      ++ encChannel cfg.variant (scale b cfg.intensity))
  ∧ (∀ v : Byte, encChannel .standard v = encStd v ∧ encChannel .extended v = encExt v)
  ∧ (∀ (cfg : Cfg) (c : Color), (encColor cfg c).length = bpl cfg.variant)
  ∧ (∀ (cfg : Cfg) (c : Color), cfg.intensity = 0 → encColor cfg c = encColor cfg ⟨0, 0, 0⟩)
  ∧ (∀ cfg : Cfg, cfg.variant = .standard → encColor cfg ⟨0, 0, 0⟩ = List.replicate 12 0x11#8)
  ∧ (∀ cfg : Cfg, cfg.variant = .extended → encColor cfg ⟨0, 0, 0⟩ =
      [0x84#8, 0x21#8, 0x08#8, 0x42#8, 0x10#8, 0x84#8, 0x21#8, 0x08#8, 0x42#8, 0x10#8,
       0x84#8, 0x21#8, 0x08#8, 0x42#8, 0x10#8])
  ∧ encChannel .extended 255#8 = [0xF7#8, 0xBD#8, 0xEF#8, 0x7B#8, 0xDE#8]
  ∧ encColor { ledCount := 1, intensity := 1, variant := .standard } ⟨10, 20, 30⟩ =
      [0x11#8, 0x13#8, 0x13#8, 0x11#8, 0x11#8, 0x11#8, 0x31#8, 0x31#8, 0x11#8, 0x13#8, 0x33#8, 0x31#8]

/-- 30 R62, R63, 20 R45: on the wire a colour is the protocol bit pattern of each bit of its scaled
channels, green, red, blue, most significant bit first. -/
def Obligations.ColorOnTheWireIsItsProtocolBits : Prop :=
  ∀ (cfg : Cfg) (c : Color), wireBits (encColor cfg c) =
    [c.g, c.r, c.b].flatMap fun ch =>
      (byteBits (scale ch cfg.intensity)).flatMap (protocolBit cfg.variant)

/-! ## FrameBuffer -/

/-- 20 R41, R43: every offset is byte `k` of wire channel `j` of slot `s` for exactly one `s`, `j`, `k`. -/
def Obligations.EveryOffsetHasOnePlaceInOneSlot : Prop :=
  ∀ (v : Variant) (a : Nat),
    (∃ s j k, j < 3 ∧ k < bpc v ∧ channelOffset v s j k = a ∧ slotOf v a = s)
    ∧ ∀ s j k s' j' k', j < 3 → k < bpc v → j' < 3 → k' < bpc v →
        channelOffset v s j k = channelOffset v s' j' k' → s = s' ∧ j = j' ∧ k = k'

/-- 41 R111: a FILL that fits answers OK with `startSlot + n`, writes the encodings into its slots and
changes no other byte and nothing else; one that does not fit answers OverflowError, and one without an
instance IllegalCommand, and these two leave the whole state as it was but for the response. -/
def Obligations.FillWritesItsSlotsAndNothingElse : Prop :=
  ∀ (s : State) (colors : List Color) (k : Nat), s.Inv →
    (s.driver = none →
      exec (.fill colors k) s = .next { s with responses := s.responses ++ [0x04000000#32] })
    ∧ (∀ d, s.driver = some d → d.cfg.ledCount < k + colors.length →
      exec (.fill colors k) s = .next { s with responses := s.responses ++ [0x02000000#32] })
    ∧ (∀ d, s.driver = some d → k + colors.length ≤ d.cfg.ledCount →
      ∃ t, exec (.fill colors k) s = .next t
        ∧ t.responses = s.responses ++ [0x00#8 ++ 0x00#8 ++ BitVec.ofNat 16 (k + colors.length)]
        ∧ (∀ i c, colors[i]? = some c → ∀ j < bpl d.cfg.variant,
            t.peek (slotOffset d.cfg.variant (k + i) + j) = (encColor d.cfg c)[j]?)
        ∧ (∀ a, a < slotOffset d.cfg.variant k ∨ slotOffset d.cfg.variant (k + colors.length) ≤ a →
            t.peek a = s.peek a)
        ∧ (∃ d', t.driver = some d' ∧ d'.cfg = d.cfg ∧ d'.rb = d.rb ∧ d'.tb.size = d.tb.size)
        ∧ t.txlog = s.txlog ∧ t.cmdIn = s.cmdIn ∧ t.answers = s.answers ∧ t.sends = s.sends
        ∧ t.maxLeds = s.maxLeds)

/-- 60 R147: a FILL with `startSlot + n > ledCount` and a SHOW with `n > ledCount` raise OverflowError and
leave the whole state as it was but for the response: nothing is written and nothing sent. This holds in
every state with an instance. -/
def Obligations.TooManyColorsOverflow : Prop :=
  ∀ (s : State) (d : Driver) (colors : List Color), s.driver = some d →
    (∀ k : Nat, d.cfg.ledCount < k + colors.length →
      exec (.fill colors k) s = .next { s with responses := s.responses ++ [0x02000000#32] })
    ∧ (d.cfg.ledCount < colors.length →
      exec (.showFrame colors) s = .next { s with responses := s.responses ++ [0x02000000#32] })

/-- 41 R115: PAD is the loop of single-byte writes of OFF; bytes from slot `k` on become OFF and the
bytes before are untouched. -/
def Obligations.PadIsTheByteLoop : Prop :=
  ∀ (d : Driver) (n k : Nat), d.wf n → k ≤ d.cfg.ledCount →
    ∃ d', d.pad k = .ok d'
      ∧ padLoop (offByte d.cfg.variant) (slotOffset d.cfg.variant k)
          (d.cfg.length - slotOffset d.cfg.variant k) d.tb = .ok d'.tb
      ∧ d'.cfg = d.cfg ∧ d'.rb = d.rb
      ∧ (∀ a, slotOffset d.cfg.variant k ≤ a → a < d.cfg.length →
          d'.tb.peek a = some (offByte d.cfg.variant))
      ∧ (∀ a, a < slotOffset d.cfg.variant k → d'.tb.peek a = d.tb.peek a)

/-- 41 R116: FILL_AND_PAD leaves exactly the encodings and then OFF, whatever the buffer held; too many
colours raise OverflowError and nothing is written. -/
def Obligations.FillAndPadWritesTheWholeFrame : Prop :=
  ∀ (d : Driver) (colors : List Color),
    (d.cfg.ledCount < colors.length → d.fillAndPad colors = .error (.raised .overflowError))
    ∧ ∀ (e : Driver) (n : Nat), d.wf n → e.wf n → e.cfg = d.cfg → colors.length ≤ d.cfg.ledCount →
      ∃ d' e', d.fillAndPad colors = .ok d' ∧ e.fillAndPad colors = .ok e' ∧ e'.tb = d'.tb
        ∧ d'.cfg = d.cfg ∧ d'.rb = d.rb
        ∧ d'.tb.bytes = colors.flatMap (encColor d.cfg)
            ++ List.replicate ((d.cfg.ledCount - colors.length) * bpl d.cfg.variant)
                (offByte d.cfg.variant)

/-- 30 R65, 90 C9: a padded Standard slot is the encoding of (0,0,0) at any intensity; a padded Extended
slot is the encoding of no colour. -/
def Obligations.ExtendedPadIsNoColor : Prop :=
  (∀ cfg : Cfg, cfg.variant = .standard →
    List.replicate (bpl cfg.variant) (offByte cfg.variant) = encColor cfg ⟨0, 0, 0⟩)
  ∧ (∀ (cfg : Cfg) (c : Color), cfg.variant = .extended →
    List.replicate (bpl cfg.variant) (offByte cfg.variant) ≠ encColor cfg c)

/-! ## Driver -/

/-- 42 R126, 10 R33: CONFIGURE with a legal LED count from Unconfigured, the transport answering ok,
leaves the instance the rule describes, all pad, and its sends in `TXLOG`. -/
def Obligations.ConfigureConstructsAPaddedInstance : Prop :=
  ∀ (s : State) (n : Int) (q : Rat) (v : Variant), s.phase = .unconfigured → 1 ≤ n → n ≤ s.maxLeds →
    s.sendsSucceed v →
    ∃ t d, exec (.configure n q v) s = .next t ∧ t.driver = some d
      ∧ (d.cfg.ledCount : Int) = n ∧ d.cfg.intensity = q ∧ d.cfg.variant = v
      ∧ d.tb.bytes = List.replicate (d.cfg.ledCount * bpl v) (offByte v)
      ∧ d.rb.map Memory.bytes = (match v with
          | .standard => none
          | .extended => some (List.replicate 150 0x00#8))
      ∧ t.txlog = s.txlog ++ sentFrame v (List.replicate (d.cfg.ledCount * bpl v) (offByte v))
      ∧ t.responses = s.responses ++ [0x00000000#32]
      ∧ t.cmdIn = s.cmdIn ∧ t.maxLeds = s.maxLeds ∧ t.leftAfterSends s (sentFrame v []).length

/-- 42 R127: ConfigurationError exactly for `ledCount <= 0` or `ledCount > MAXLEDS`, nothing written and
nothing sent; no intensity and no variant is invalid. -/
def Obligations.ConfigureRejectsABadLedCount : Prop :=
  ∀ (s : State) (n : Int) (q : Rat) (v : Variant), s.phase = .unconfigured →
    (exec (.configure n q v) s = .next { s with responses := s.responses ++ [0x01000000#32] }
      ↔ n ≤ 0 ∨ (s.maxLeds : Int) < n)

/-- 42 R126, 60 R151: a send of CONFIGURE that fails leaves Unconfigured, answers TransportError and
keeps the log entries; after a failed frame the reset send is not made. -/
def Obligations.ConfigureWithAFailedSendLeavesNoInstance : Prop :=
  ∀ (s : State) (n : Int) (q : Rat) (v : Variant), s.phase = .unconfigured → 1 ≤ n → n ≤ s.maxLeds →
    (s.answer 0 = .failed →
      ∃ t, exec (.configure n q v) s = .next t ∧ t.phase = .unconfigured
        ∧ t.responses = s.responses ++ [0x03000000#32]
        ∧ t.txlog = s.txlog ++ [.failed (List.replicate (n.toNat * bpl v) (offByte v))]
        ∧ t.cmdIn = s.cmdIn ∧ t.maxLeds = s.maxLeds ∧ t.leftAfterSends s 1)
    ∧ (v = .extended → s.answer 0 = .ok → s.answer 1 = .failed →
      ∃ t, exec (.configure n q v) s = .next t ∧ t.phase = .unconfigured
        ∧ t.responses = s.responses ++ [0x03000000#32]
        ∧ t.txlog = s.txlog ++ [.sent (List.replicate (n.toNat * bpl v) (offByte v)), .failed resetBytes]
        ∧ t.cmdIn = s.cmdIn ∧ t.maxLeds = s.maxLeds ∧ t.leftAfterSends s 2)

/-- 42 R130: a SHOW that fits, the transport answering ok, leaves exactly its frame in the buffer and the
frame (then for Extended the reset sequence) in `TXLOG`, and changes nothing else of the block. -/
def Obligations.ShowSendsExactlyItsFrame : Prop :=
  ∀ (s : State) (d : Driver) (colors : List Color), s.Inv → s.driver = some d →
    colors.length ≤ d.cfg.ledCount → s.sendsSucceed d.cfg.variant →
    ∃ t d', exec (.showFrame colors) s = .next t ∧ t.driver = some d'
      ∧ d'.tb.bytes = frameOf d.cfg colors ∧ d'.cfg = d.cfg ∧ d'.rb = d.rb
      ∧ t.txlog = s.txlog ++ sentFrame d.cfg.variant (frameOf d.cfg colors)
      ∧ t.responses = s.responses ++ [0x00000000#32]
      ∧ t.cmdIn = s.cmdIn ∧ t.maxLeds = s.maxLeds
      ∧ t.leftAfterSends s (sentFrame d.cfg.variant []).length

/-- 60 R153: after a failed send of SHOW the buffer holds the complete new frame, `phase` stays Ready, the
answer is TransportError; after a failed frame the reset send is not made. -/
def Obligations.ShowWithAFailedSendKeepsTheNewFrame : Prop :=
  ∀ (s : State) (d : Driver) (colors : List Color), s.Inv → s.driver = some d →
    colors.length ≤ d.cfg.ledCount →
    (s.answer 0 = .failed →
      ∃ t d', exec (.showFrame colors) s = .next t ∧ t.driver = some d'
        ∧ d'.tb.bytes = frameOf d.cfg colors ∧ d'.cfg = d.cfg ∧ d'.rb = d.rb
        ∧ t.txlog = s.txlog ++ [.failed (frameOf d.cfg colors)]
        ∧ t.responses = s.responses ++ [0x03000000#32]
        ∧ t.cmdIn = s.cmdIn ∧ t.maxLeds = s.maxLeds ∧ t.leftAfterSends s 1)
    ∧ (d.cfg.variant = .extended → s.answer 0 = .ok → s.answer 1 = .failed →
      ∃ t d', exec (.showFrame colors) s = .next t ∧ t.driver = some d'
        ∧ d'.tb.bytes = frameOf d.cfg colors ∧ d'.cfg = d.cfg ∧ d'.rb = d.rb
        ∧ t.txlog = s.txlog ++ [.sent (frameOf d.cfg colors), .failed resetBytes]
        ∧ t.responses = s.responses ++ [0x03000000#32]
        ∧ t.cmdIn = s.cmdIn ∧ t.maxLeds = s.maxLeds ∧ t.leftAfterSends s 2)

/-- 20 R43: after a SHOW that fits, whatever the transport answers, byte `k` of wire channel `j` of slot
`i` is byte `k` of the encoding of that channel of colour `i`. -/
def Obligations.ShowPlacesEveryChannelByte : Prop :=
  ∀ (s : State) (d : Driver) (colors : List Color), s.Inv → s.driver = some d →
    colors.length ≤ d.cfg.ledCount →
    ∃ t, exec (.showFrame colors) s = .next t
      ∧ ∀ i c, colors[i]? = some c → ∀ j < 3, ∀ k < bpc d.cfg.variant,
          t.peek (channelOffset d.cfg.variant i j k)
            = (encChannel d.cfg.variant (scale (wireChannel c j) d.cfg.intensity))[k]?

/-- 42 R130, last sentence: SHOW does not depend on what the buffer held. -/
def Obligations.ShowForgetsTheOldBuffer : Prop :=
  ∀ (s : State) (d : Driver) (tb : Memory) (colors : List Color), s.Inv → s.driver = some d →
    State.Inv { s with driver := some { d with tb := tb } } → colors.length ≤ d.cfg.ledCount →
    exec (.showFrame colors) { s with driver := some { d with tb := tb } } = exec (.showFrame colors) s

/-- 70 R182: a FILL sends nothing, and a SHOW after it puts on the wire what the SHOW alone would; if the
SHOW fits it also leaves the same instance. -/
def Obligations.FillNeverReachesTheWire : Prop :=
  ∀ (s t : State) (fillColors colors : List Color) (k : Nat), s.Inv →
    exec (.fill fillColors k) s = .next t →
    t.txlog = s.txlog ∧ ∃ u u', exec (.showFrame colors) s = .next u
      ∧ exec (.showFrame colors) t = .next u' ∧ u'.txlog = u.txlog
      ∧ (∀ d, s.driver = some d → colors.length ≤ d.cfg.ledCount → u'.driver = u.driver)

/-- 20 R50: repeating a FILL or a SHOW writes the same bytes again, whatever the transport answers. -/
def Obligations.RepeatingACommandKeepsTheBuffer : Prop :=
  ∀ (s t u : State) (colors : List Color) (k : Nat), s.Inv →
    (exec (.fill colors k) s = .next t → exec (.fill colors k) t = .next u → u.driver = t.driver)
    ∧ (exec (.showFrame colors) s = .next t → exec (.showFrame colors) t = .next u →
        u.driver = t.driver)

/-- 42 R134: one send appends one entry, tagged with the transport's answer, returns that answer, and
changes nothing of the block besides. -/
def Obligations.SendAppendsOneLogEntry : Prop :=
  ∀ (s : State) (bs : List Byte),
    (txSend bs s).2 = s.answer 0
    ∧ (s.answer 0 = .ok → (txSend bs s).1.txlog = s.txlog ++ [.sent bs])
    ∧ (s.answer 0 = .failed → (txSend bs s).1.txlog = s.txlog ++ [.failed bs])
    ∧ (txSend bs s).1.driver = s.driver ∧ (txSend bs s).1.responses = s.responses
    ∧ (txSend bs s).1.cmdIn = s.cmdIn

/-- 42 R137, 60 R148, 20 R52: a step that offers the transport anything offers first a whole frame (after
SHOW the buffer as the step leaves it, after CONFIGURE the OFF frame), then at most the reset sequence;
only the last one offered can have failed; the response is TransportError exactly when a send of the step
failed; only Extended offers a second buffer. The count of sends `State.sends` is the model's own
(assumption 4). -/
def Obligations.NoSendIsRetried : Prop :=
  ∀ s t : State, s.Inv → step s = .next t →
    ∃ new, t.txlog = s.txlog ++ new ∧ t.sends = s.sends + new.length ∧ new.length ≤ 2
      ∧ (∀ e ∈ new.dropLast, ∃ bs, e = .sent bs)
      ∧ (∀ e, new[0]? = some e → ∃ p rest, s.cmdIn = p :: rest ∧
          ((∃ colors d, decode p = .ok (.showFrame colors) ∧ t.driver = some d ∧ e.bytes = d.tb.bytes
              ∧ (d.cfg.variant = .standard → new.length ≤ 1))
            ∨ ∃ n q v, decode p = .ok (.configure n q v)
              ∧ e.bytes = List.replicate (n.toNat * bpl v) (offByte v)
              ∧ (v = .standard → new.length ≤ 1)))
      ∧ (∀ e, new[1]? = some e → e.bytes = resetBytes)
      ∧ ((∃ bs, .failed bs ∈ new) ↔ t.responses = s.responses ++ [0x03000000#32])
      ∧ (∀ d, s.driver = some d → d.cfg.variant = .standard → new.length ≤ 1)

/-! ## Whole-machine rules -/

/-- 10 R31: every step keeps the invariant. -/
def Obligations.EveryStepKeepsTheInvariant : Prop :=
  ∀ s t : State, s.Inv → step s = .next t → t.Inv

/-- 10 R32 (b), (c): every step keeps every slot coded or off. -/
def Obligations.EveryStepKeepsSlotsCodedOrOff : Prop :=
  ∀ s t : State, s.Inv → s.slotsCodedOrOff → step s = .next t → t.slotsCodedOrOff

/-- 20 R57, 30 R70: from a state that meets the invariant every step answers a next state: no command
leaves the buffers' bounds and no packet stops the machine, with a transport that answers every send
(assumption 4). -/
def Obligations.NoStepFaultsOrIsRefused : Prop := ∀ s : State, s.Inv → ∃ t, step s = .next t

/-- 10 R21, R22, R28: an instance keeps its configuration, its buffer's size and its ResetBuffer through
every step of every state; only a CONFIGURE makes one, with the operands given. -/
def Obligations.ConfigurationIsFixedForLife : Prop :=
  ∀ s t : State, step s = .next t →
    t.maxLeds = s.maxLeds
    ∧ (∀ d, s.driver = some d → ∃ d', t.driver = some d' ∧ d'.cfg = d.cfg ∧ d'.rb = d.rb
        ∧ d'.tb.size = d.tb.size)
    ∧ (∀ d, s.driver = none → t.driver = some d → ∃ p rest n q v, s.cmdIn = p :: rest
        ∧ decode p = .ok (.configure n q v) ∧ (d.cfg.ledCount : Int) = n ∧ d.cfg.intensity = q
        ∧ d.cfg.variant = v)

/-- 60 R150: raising an error delivers its code with value 0 and changes nothing else. -/
def Obligations.RaiseChangesOnlyTheResponse : Prop :=
  ∀ s : State,
    s.raise .configurationError = { s with responses := s.responses ++ [0x01000000#32] }
    ∧ s.raise .overflowError = { s with responses := s.responses ++ [0x02000000#32] }
    ∧ s.raise .transportError = { s with responses := s.responses ++ [0x03000000#32] }
    ∧ s.raise .illegalCommand = { s with responses := s.responses ++ [0x04000000#32] }

/-- 60 R151, R152: a command of any state that answers ConfigurationError, OverflowError or IllegalCommand
has changed nothing at all but the response. -/
def Obligations.ErrorsBeforeSendingChangeNothing : Prop :=
  ∀ (i : Instr) (s t : State) (e : ErrorKind), e ≠ .transportError → exec i s = .next t →
    t.responses = s.responses ++ [errorResponse e] → t = s.raise e

/-- 30 R66: the byte values that can occur in the TransportBuffer. -/
def Obligations.OnlyProtocolBytesInTheBuffer : Prop :=
  ∀ (s : State) (d : Driver) (a : Nat) (b : Byte), s.Inv → s.slotsCodedOrOff → s.driver = some d →
    s.peek a = some b →
    (d.cfg.variant = .standard → b ∈ [0x11#8, 0x13#8, 0x31#8, 0x33#8])
    ∧ (d.cfg.variant = .extended → b = 0x00#8
        ∨ (a % 5 = 0 ∧ b ∈ [0x84#8, 0x87#8, 0xF4#8, 0xF7#8])
        ∨ (a % 5 = 1 ∧ b ∈ [0x21#8, 0x3D#8, 0xA1#8, 0xBD#8])
        ∨ (a % 5 = 2 ∧ b ∈ [0x08#8, 0x0F#8, 0xE8#8, 0xEF#8])
        ∨ (a % 5 = 3 ∧ b ∈ [0x42#8, 0x43#8, 0x7A#8, 0x7B#8])
        ∨ (a % 5 = 4 ∧ b ∈ [0x10#8, 0x1E#8, 0xD0#8, 0xDE#8]))

/-- 93 U4, 20 R46: what may have reached the wire is settled entry by entry: nothing for the empty log,
all bytes of a `Sent` entry, any prefix of a `Failed` one, and for two logs joined what the first may have
put there and then what the second may. So for a log without failures it is exactly its bytes in order,
and for the log of an Extended frame whose reset send failed it is the frame and a prefix of the reset
sequence. -/
def Obligations.WireContentsOfALog : Prop :=
  (∀ out : List Byte, mayReachWire [] out ↔ out = [])
  ∧ (∀ bs out : List Byte, mayReachWire [.sent bs] out ↔ out = bs)
  ∧ (∀ bs out : List Byte, mayReachWire [.failed bs] out ↔ out <+: bs)
  ∧ (∀ (log1 log2 : List TxEvent) (out : List Byte), mayReachWire (log1 ++ log2) out ↔
      ∃ a b, out = a ++ b ∧ mayReachWire log1 a ∧ mayReachWire log2 b)
  ∧ (∀ frame out : List Byte, mayReachWire [.sent frame, .failed resetBytes] out ↔
      ∃ pre, pre <+: resetBytes ∧ out = frame ++ pre)
  ∧ (∀ (log : List TxEvent) (out : List Byte), (∀ e ∈ log, ∃ bs, e = .sent bs) →
      (mayReachWire log out ↔ out = log.flatMap TxEvent.bytes))
end

