-- ==== Sys2Proof/Laws/ChannelEncoder.lean ====
section
/-! SUPPORT. Lengths and places of the encoders' results (spec 40_channel_encoder R94, R96, R98;
20_memory R43). -/

namespace Sys2Proof.Machine

theorem bpl_pos (v : Variant) : 0 < bpl v := by cases v <;> decide

theorem length_encChannel (v : Variant) (b : Byte) : (encChannel v b).length = bpc v := by
  cases v <;> rfl

/-- One colour is `BPL` bytes. -/
theorem length_encColor (cfg : Cfg) (c : Color) : (encColor cfg c).length = bpl cfg.variant := by
  simp only [encColor, List.length_append, length_encChannel, bpl, channels]
  omega

/-- A run of colours is `BPL` bytes a colour. -/
theorem length_encColors (cfg : Cfg) (cs : List Color) :
    (cs.flatMap (encColor cfg)).length = cs.length * bpl cfg.variant := by
  induction cs with
  | nil => simp
  | cons c cs ih => simp [ih, length_encColor, Nat.succ_mul, Nat.add_comm]

/-- Byte `j` of colour `i` in a run of colours. -/
theorem getElem?_encColors (cfg : Cfg) (cs : List Color) (i j : Nat) (c : Color) (hc : cs[i]? = some c)
    (hj : j < bpl cfg.variant) :
    (cs.flatMap (encColor cfg))[i * bpl cfg.variant + j]? = (encColor cfg c)[j]? := by
  induction cs generalizing i with
  | nil => simp at hc
  | cons x xs ih =>
    have hx := length_encColor cfg x
    cases i with
    | zero =>
      simp only [List.getElem?_cons_zero, Option.some.injEq] at hc
      subst hc
      simp [List.getElem?_append_left (hx ▸ hj : j < (encColor cfg x).length)]
    | succ i =>
      simp only [List.getElem?_cons_succ] at hc
      have e : (i + 1) * bpl cfg.variant + j - bpl cfg.variant = i * bpl cfg.variant + j := by
        rw [Nat.succ_mul]; omega
      rw [List.flatMap_cons, List.getElem?_append_right (by rw [hx, Nat.succ_mul]; omega), hx, e, ih i hc]

/-- A claim about every byte is a claim about the numbers below 256. -/
theorem forall_byte (P : Byte → Prop) (h : ∀ n : Fin 256, P (BitVec.ofFin n)) (v : Byte) : P v := h v.toFin

end Sys2Proof.Machine
end

