-- ==== Sys2Proof/Laws/Memory.lean ====
section
/-! SUPPORT. The laws of a buffer: a read after a write, what a write leaves alone, and that every
operation keeps the canonical form `Memory.wf`. -/

namespace Sys2Proof.Machine

/-! ## Looking a byte up -/

theorem lookupCell_eq_zero {cs : List Host.Cell} {a : Nat} (h : ∀ c ∈ cs, c.1 ≠ a) :
    lookupCell cs a = 0#8 := by
  induction cs with
  | nil => rfl
  | cons c cs ih =>
    rw [lookupCell, if_neg (h c (by simp))]
    exact ih fun x hx => h x (by simp [hx])

theorem lookupCell_append_left {xs ys : List Host.Cell} {a : Nat} (h : ∀ c ∈ ys, c.1 ≠ a) :
    lookupCell (xs ++ ys) a = lookupCell xs a := by
  induction xs with
  | nil => exact lookupCell_eq_zero h
  | cons c xs ih => simp only [List.cons_append, lookupCell, ih]

theorem lookupCell_append_right {xs ys : List Host.Cell} {a : Nat} (h : ∀ c ∈ xs, c.1 ≠ a) :
    lookupCell (xs ++ ys) a = lookupCell ys a := by
  induction xs with
  | nil => rfl
  | cons c xs ih =>
    rw [List.cons_append, lookupCell, if_neg (h c (by simp))]
    exact ih fun x hx => h x (by simp [hx])

theorem lookupCell_filter {cs : List Host.Cell} {p : Host.Cell → Bool} {a : Nat}
    (h : ∀ c : Host.Cell, c.1 = a → p c = true) :
    lookupCell (cs.filter p) a = lookupCell cs a := by
  induction cs with
  | nil => rfl
  | cons c cs ih =>
    by_cases hp : p c = true
    · rw [List.filter_cons_of_pos hp]
      simp only [lookupCell, ih]
    · rw [List.filter_cons_of_neg hp, lookupCell, if_neg fun e => hp (h c e), ih]

/-! ## The cells of a run of bytes -/

theorem cellsOf_mem {bs : List Byte} {a : Nat} {c : Host.Cell} (h : c ∈ cellsOf a bs) :
    a ≤ c.1 ∧ c.1 < a + bs.length ∧ c.2 ≠ 0#8 := by
  induction bs generalizing a with
  | nil => simp [cellsOf] at h
  | cons b bs ih =>
    by_cases hb : b = 0#8
    · simp only [cellsOf, hb, if_true] at h
      obtain ⟨h1, h2, h3⟩ := ih h
      exact ⟨by omega, by simp only [List.length_cons]; omega, h3⟩
    · simp only [cellsOf, hb, if_false, List.mem_cons] at h
      obtain rfl | h := h
      · exact ⟨le_refl _, by simp, hb⟩
      · obtain ⟨h1, h2, h3⟩ := ih h
        exact ⟨by omega, by simp only [List.length_cons]; omega, h3⟩

theorem cellsOf_pairwise (bs : List Byte) (a : Nat) :
    (cellsOf a bs).Pairwise (fun x y => x.1 < y.1) := by
  induction bs generalizing a with
  | nil => exact List.Pairwise.nil
  | cons b bs ih =>
    by_cases hb : b = 0#8
    · simp only [cellsOf, hb, if_true]
      exact ih _
    · simp only [cellsOf, hb, if_false, List.pairwise_cons]
      exact ⟨fun c hc => by have := (cellsOf_mem hc).1; omega, ih _⟩

theorem lookupCell_cellsOf (bs : List Byte) (addr a : Nat) :
    lookupCell (cellsOf addr bs) a = if addr ≤ a then bs.getD (a - addr) 0#8 else 0#8 := by
  induction bs generalizing addr with
  | nil => simp [cellsOf, lookupCell]
  | cons b bs ih =>
    have step : lookupCell (cellsOf addr (b :: bs)) a
        = if addr = a then b else lookupCell (cellsOf (addr + 1) bs) a := by
      by_cases hb : b = 0#8
      · simp only [cellsOf, hb, if_true]
        split
        · refine lookupCell_eq_zero fun c hc => ?_
          have := (cellsOf_mem hc).1
          omega
        · rfl
      · simp only [cellsOf, hb, if_false, lookupCell]
    rw [step, ih]
    by_cases h : addr = a
    · subst h; simp
    · by_cases h' : addr + 1 ≤ a
      · have e : a - addr = (a - (addr + 1)) + 1 := by omega
        simp [h, h', Nat.le_of_succ_le h', e]
      · have : ¬ addr ≤ a := by omega
        simp [h, h', this]

/-! ## Reading -/

@[simp] theorem length_bytesFrom (cs : List Host.Cell) (a n : Nat) : (bytesFrom cs a n).length = n := by
  induction n generalizing a with
  | zero => rfl
  | succ n ih => simp [bytesFrom, ih]

theorem getElem?_bytesFrom (cs : List Host.Cell) (a n k : Nat) :
    (bytesFrom cs a n)[k]? = if k < n then some (lookupCell cs (a + k)) else none := by
  induction n generalizing a k with
  | zero => simp [bytesFrom]
  | succ n ih =>
    cases k with
    | zero => simp [bytesFrom]
    | succ k => simp [bytesFrom, ih, Nat.add_assoc, Nat.add_comm 1 k]

theorem bytesFrom_append (cs : List Host.Cell) (a m n : Nat) :
    bytesFrom cs a (m + n) = bytesFrom cs a m ++ bytesFrom cs (a + m) n := by
  induction m generalizing a with
  | zero => simp [bytesFrom]
  | succ m ih =>
    rw [Nat.succ_add, bytesFrom, bytesFrom, ih, List.cons_append]
    congr 3
    omega

theorem bytesFrom_congr {cs ds : List Host.Cell} {a n : Nat}
    (h : ∀ k < n, lookupCell cs (a + k) = lookupCell ds (a + k)) :
    bytesFrom cs a n = bytesFrom ds a n := by
  apply List.ext_getElem?
  intro k
  rw [getElem?_bytesFrom, getElem?_bytesFrom]
  split
  · rename_i hk; rw [h k hk]
  · rfl

theorem bytesFrom_cellsOf (bs : List Byte) (a : Nat) : bytesFrom (cellsOf a bs) a bs.length = bs := by
  apply List.ext_getElem?
  intro k
  rw [getElem?_bytesFrom, lookupCell_cellsOf]
  split
  · rename_i hk
    simp [hk, List.getD_eq_getElem?_getD]
  · rename_i hk
    simp at hk
    simp [hk]

theorem bytesFrom_nil (a n : Nat) : bytesFrom [] a n = List.replicate n 0#8 := by
  induction n generalizing a with
  | zero => rfl
  | succ n ih => simp [bytesFrom, lookupCell, ih, List.replicate_succ]

/-- All that a read can do (00 R13). -/
theorem Memory.read_eq (m : Memory) (addr n : Nat) :
    m.read addr n = if addr + n ≤ m.size then .ok (bytesFrom m.cells addr n) else .error .bufferRange := rfl

/-- Reading the whole buffer gives its bytes. -/
theorem Memory.read_all (m : Memory) : m.read 0 m.size = .ok m.bytes := by
  simp [Memory.read, Memory.bytes]

/-! ## Writing -/

/-- All that a write can do (00 R13). -/
theorem Memory.write_ok_iff (m m' : Memory) (addr : Nat) (bs : List Byte) :
    m.write addr bs = .ok m' ↔ addr + bs.length ≤ m.size ∧ m' = m.overwrite addr bs := by
  unfold Memory.write
  split
  · rename_i h; simp [h, eq_comm]
  · rename_i h; simp [h]

@[simp] theorem Memory.overwrite_size (m : Memory) (addr : Nat) (bs : List Byte) :
    (m.overwrite addr bs).size = m.size := rfl

/-- A read after a write, at the bytes written and everywhere else. -/
theorem Memory.overwrite_lookup (m : Memory) (addr : Nat) (bs : List Byte) (a : Nat) :
    lookupCell (m.overwrite addr bs).cells a
      = if addr ≤ a ∧ a < addr + bs.length then bs.getD (a - addr) 0#8 else lookupCell m.cells a := by
  simp only [Memory.overwrite]
  have hmid : ∀ c ∈ cellsOf addr bs, addr ≤ c.1 ∧ c.1 < addr + bs.length := fun c hc =>
    ⟨(cellsOf_mem hc).1, (cellsOf_mem hc).2.1⟩
  have hlow : ∀ c ∈ m.cells.filter (fun c => decide (c.1 < addr)), c.1 < addr := fun c hc => by
    simpa using (List.mem_filter.mp hc).2
  have hhigh : ∀ c ∈ m.cells.filter (fun c => decide (addr + bs.length ≤ c.1)), addr + bs.length ≤ c.1 :=
    fun c hc => by simpa using (List.mem_filter.mp hc).2
  by_cases h1 : a < addr
  · rw [if_neg (by omega), lookupCell_append_left, lookupCell_append_left, lookupCell_filter]
    · intro c hc; simp [hc, h1]
    · intro c hc; have := hmid c hc; omega
    · intro c hc; have := hhigh c hc; omega
  · by_cases h2 : a < addr + bs.length
    · rw [if_pos (by omega), lookupCell_append_left, lookupCell_append_right, lookupCell_cellsOf,
        if_pos (by omega)]
      · intro c hc; have := hlow c hc; omega
      · intro c hc; have := hhigh c hc; omega
    · rw [if_neg (by omega), lookupCell_append_right, lookupCell_filter]
      · intro c hc; simp [hc]; omega
      · intro c hc
        rcases List.mem_append.mp hc with hc | hc
        · have := hlow c hc; omega
        · have := hmid c hc; omega

/-- A write inside the buffer keeps the canonical form. -/
theorem Memory.overwrite_wf {m : Memory} {addr : Nat} {bs : List Byte} (hm : m.wf)
    (h : addr + bs.length ≤ m.size) : (m.overwrite addr bs).wf := by
  obtain ⟨hs, hc⟩ := hm
  constructor
  · simp only [Memory.overwrite]
    rw [List.pairwise_append, List.pairwise_append]
    refine ⟨⟨hs.filter _, cellsOf_pairwise bs addr, ?_⟩, hs.filter _, ?_⟩
    · intro x hx y hy
      have h1 : x.1 < addr := by simpa using (List.mem_filter.mp hx).2
      have h2 := (cellsOf_mem hy).1
      omega
    · intro x hx y hy
      have h2 : addr + bs.length ≤ y.1 := by simpa using (List.mem_filter.mp hy).2
      rcases List.mem_append.mp hx with hx | hx
      · have h1 : x.1 < addr := by simpa using (List.mem_filter.mp hx).2
        omega
      · have h1 := (cellsOf_mem hx).2.1
        omega
  · intro c hmem
    simp only [Memory.overwrite, List.mem_append, List.mem_filter] at hmem
    rcases hmem with (⟨hm, -⟩ | hm) | ⟨hm, -⟩
    · exact hc c hm
    · have := cellsOf_mem hm
      exact ⟨by simp only [Memory.overwrite]; omega, this.2.2⟩
    · exact hc c hm

/-- A write that answers keeps the canonical form. -/
theorem Memory.write_wf {m m' : Memory} {addr : Nat} {bs : List Byte} (hm : m.wf)
    (h : m.write addr bs = .ok m') : m'.wf := by
  obtain ⟨h1, rfl⟩ := (Memory.write_ok_iff ..).mp h
  exact Memory.overwrite_wf hm h1

/-- A freshly allocated buffer has the canonical form. -/
theorem Memory.zeroed_wf (n : Nat) : (Memory.zeroed n).wf := ⟨List.Pairwise.nil, by simp [Memory.zeroed]⟩

/-! ## Canonical means equal -/

theorem cells_eq_of_lookup {cs ds : List Host.Cell} (hc : cs.Pairwise (fun x y => x.1 < y.1))
    (hd : ds.Pairwise (fun x y => x.1 < y.1)) (hcz : ∀ c ∈ cs, c.2 ≠ 0#8) (hdz : ∀ c ∈ ds, c.2 ≠ 0#8)
    (h : ∀ a, lookupCell cs a = lookupCell ds a) : cs = ds := by
  induction cs generalizing ds with
  | nil =>
    cases ds with
    | nil => rfl
    | cons d ds =>
      have := h d.1
      simp only [lookupCell, if_true] at this
      exact absurd this.symm (hdz d (by simp))
  | cons c cs ih =>
    cases ds with
    | nil =>
      have := h c.1
      simp only [lookupCell, if_true] at this
      exact absurd this (hcz c (by simp))
    | cons d ds =>
      rw [List.pairwise_cons] at hc hd
      have hcz' := hcz c (by simp)
      have hdz' := hdz d (by simp)
      have key : c.1 = d.1 := by
        rcases Nat.lt_trichotomy c.1 d.1 with hlt | he | hlt
        · have := h c.1
          simp only [lookupCell, if_true] at this
          rw [if_neg (by omega), lookupCell_eq_zero] at this
          · exact absurd this hcz'
          · intro x hx; have := hd.1 x hx; omega
        · exact he
        · have := h d.1
          simp only [lookupCell, if_true] at this
          rw [if_neg (by omega), lookupCell_eq_zero] at this
          · exact absurd this.symm hdz'
          · intro x hx; have := hc.1 x hx; omega
      have val : c.2 = d.2 := by
        have := h c.1
        simpa [lookupCell, key] using this
      have tail : cs = ds := by
        refine ih hc.2 hd.2 (fun x hx => hcz x (by simp [hx])) (fun x hx => hdz x (by simp [hx])) fun a => ?_
        by_cases ha : c.1 = a
        · rw [lookupCell_eq_zero, lookupCell_eq_zero]
          · intro x hx; have := hd.1 x hx; omega
          · intro x hx; have := hc.1 x hx; omega
        · have := h a
          simpa [lookupCell, ha, key ▸ ha] using this
      rw [tail, Prod.ext key val]

/-- Two canonical buffers of one size with the same bytes are the same data. -/
theorem Memory.eq_of_lookup {m m' : Memory} (hm : m.wf) (hm' : m'.wf) (hs : m.size = m'.size)
    (h : ∀ a < m.size, lookupCell m.cells a = lookupCell m'.cells a) : m = m' := by
  have hcells : m.cells = m'.cells := by
    refine cells_eq_of_lookup hm.1 hm'.1 (fun c hc => (hm.2 c hc).2) (fun c hc => (hm'.2 c hc).2) fun a => ?_
    by_cases ha : a < m.size
    · exact h a ha
    · rw [lookupCell_eq_zero, lookupCell_eq_zero]
      · intro c hc; have := (hm'.2 c hc).1; omega
      · intro c hc; have := (hm.2 c hc).1; omega
  cases m; cases m'; simp_all

/-- Writing two runs one after the other is writing them joined. -/
theorem Memory.overwrite_overwrite {m : Memory} {addr : Nat} {xs ys : List Byte} (hm : m.wf)
    (h : addr + xs.length + ys.length ≤ m.size) :
    (m.overwrite addr xs).overwrite (addr + xs.length) ys = m.overwrite addr (xs ++ ys) := by
  have h1 : (m.overwrite addr xs).wf := Memory.overwrite_wf hm (by omega)
  refine Memory.eq_of_lookup (Memory.overwrite_wf h1 (by simpa using h))
    (Memory.overwrite_wf hm (by simp; omega)) rfl fun a _ => ?_
  simp only [Memory.overwrite_lookup, List.length_append, List.getD_eq_getElem?_getD]
  by_cases ha : addr ≤ a
  · by_cases hb : a < addr + xs.length
    · rw [if_neg (by omega), if_pos ⟨ha, hb⟩, if_pos (by omega), List.getElem?_append_left (by omega)]
    · by_cases hc : a < addr + xs.length + ys.length
      · rw [if_pos (by omega), if_pos (by omega), List.getElem?_append_right (by omega)]
        congr 2
        omega
      · rw [if_neg (by omega), if_neg (by omega), if_neg (by omega)]
  · rw [if_neg (by omega), if_neg (by omega), if_neg (by omega)]

/-- Writing nothing changes nothing. -/
theorem Memory.overwrite_nil {m : Memory} {addr : Nat} (hm : m.wf) (h : addr ≤ m.size) :
    m.overwrite addr [] = m := by
  refine Memory.eq_of_lookup (Memory.overwrite_wf hm (by simpa using h)) hm rfl fun a _ => ?_
  rw [Memory.overwrite_lookup, if_neg (by simp)]

/-- The bytes of a buffer written whole. -/
theorem Memory.bytes_overwrite_all (m : Memory) (bs : List Byte) (h : bs.length = m.size) :
    (m.overwrite 0 bs).bytes = bs := by
  unfold Memory.bytes
  rw [Memory.overwrite_size, ← h, bytesFrom_congr (ds := cellsOf 0 bs), bytesFrom_cellsOf]
  intro k hk
  rw [Memory.overwrite_lookup, lookupCell_cellsOf]
  simp [hk]

/-- Buffers written whole with the same bytes are equal, whatever they held. -/
theorem Memory.overwrite_all_eq {m m' : Memory} {bs : List Byte} (hm : m.wf) (hm' : m'.wf)
    (hs : m.size = m'.size) (h : bs.length = m.size) : m.overwrite 0 bs = m'.overwrite 0 bs := by
  refine Memory.eq_of_lookup (Memory.overwrite_wf hm (by omega)) (Memory.overwrite_wf hm' (by omega)) hs
    fun a ha => ?_
  rw [Memory.overwrite_size] at ha
  rw [Memory.overwrite_lookup, Memory.overwrite_lookup, if_pos (by omega), if_pos (by omega)]

/-- The test bench's read of one byte. -/
theorem Memory.peek_eq (m : Memory) (a : Nat) :
    m.peek a = if a < m.size then some (lookupCell m.cells a) else none := rfl

/-- The bytes of a buffer, by offset. -/
theorem Memory.getElem?_bytes (m : Memory) (a : Nat) : m.bytes[a]? = m.peek a := by
  rw [Memory.bytes, getElem?_bytesFrom, Memory.peek, Nat.zero_add]

@[simp] theorem Memory.length_bytes (m : Memory) : m.bytes.length = m.size := length_bytesFrom ..

end Sys2Proof.Machine
end

