-- ==== Sys2Proof/Laws/FrameBuffer.lean ====
section
/-! SUPPORT. What FILL, PAD and FILL_AND_PAD do on an instance whose buffer has its size and form, said
once as one write each (spec 41_frame_buffer R111 to R117). -/

namespace Sys2Proof.Machine

/-- The colour loop is one write of the encodings joined. -/
theorem fillLoop_eq (cfg : Cfg) (cs : List Color) (off : Nat) (m : Memory) (hm : m.wf)
    (h : off + cs.length * bpl cfg.variant ≤ m.size) :
    fillLoop cfg off cs m
      = .ok (m.overwrite off (cs.flatMap (encColor cfg)), off + cs.length * bpl cfg.variant) := by
  induction cs generalizing off m with
  | nil =>
    have h' : off ≤ m.size := by simpa using h
    simp [fillLoop, Memory.overwrite_nil hm h']
  | cons c cs ih =>
    have hl := length_encColor cfg c
    rw [List.length_cons, Nat.succ_mul] at h
    have hw : m.write off (encColor cfg c) = .ok (m.overwrite off (encColor cfg c)) :=
      (Memory.write_ok_iff ..).mpr ⟨by omega, rfl⟩
    have hwf : (m.overwrite off (encColor cfg c)).wf := Memory.overwrite_wf hm (by omega)
    rw [fillLoop, hw]
    simp only
    rw [ih _ _ hwf (by rw [Memory.overwrite_size]; omega), ← hl, Memory.overwrite_overwrite hm]
    · simp only [List.flatMap_cons, List.length_cons, Nat.succ_mul]
      congr 2
      omega
    · rw [length_encColors]; omega

/-- The instance after a FILL that fits. -/
def Driver.filled (d : Driver) (cs : List Color) (startSlot : Nat) : Driver :=
  { d with tb := d.tb.overwrite (slotOffset d.cfg.variant startSlot) (cs.flatMap (encColor d.cfg)) }

/-- All that FILL can do on such an instance: OverflowError, or the slots written and the next slot. -/
theorem Driver.fill_eq (d : Driver) (cs : List Color) (startSlot : Nat) (hs : d.tb.size = d.cfg.length)
    (hm : d.tb.wf) :
    d.fill cs startSlot
      = if d.cfg.ledCount < startSlot + cs.length then .error (.raised .overflowError)
        else .ok (d.filled cs startSlot, startSlot + cs.length) := by
  unfold Driver.fill
  split
  · rfl
  · rename_i h
    have hle : slotOffset d.cfg.variant startSlot + cs.length * bpl d.cfg.variant ≤ d.tb.size := by
      rw [hs, slotOffset, Cfg.length, ← Nat.add_mul]
      exact Nat.mul_le_mul_right _ (by omega)
    rw [fillLoop_eq _ _ _ _ hm hle]
    simp only [slotOf, slotOffset, ← Nat.add_mul, Nat.mul_div_cancel _ (bpl_pos _)]
    rfl

/-- The instance after PAD from slot `k`. -/
def Driver.padded (d : Driver) (k : Nat) : Driver :=
  let pad := List.replicate ((d.cfg.ledCount - k) * bpl d.cfg.variant) (offByte d.cfg.variant)
  { d with tb := d.tb.overwrite (slotOffset d.cfg.variant k) pad }

/-- PAD is one write of OFF from slot `k` to the end. -/
theorem Driver.pad_eq (d : Driver) (k : Nat) (hs : d.tb.size = d.cfg.length) (hk : k ≤ d.cfg.ledCount) :
    d.pad k = .ok (d.padded k) := by
  have hle := Nat.mul_le_mul_right (bpl d.cfg.variant) hk
  unfold Driver.pad
  have hlen : d.cfg.length - slotOffset d.cfg.variant k = (d.cfg.ledCount - k) * bpl d.cfg.variant := by
    rw [Cfg.length, slotOffset, Nat.sub_mul]
  have hw := (Memory.write_ok_iff d.tb _ (slotOffset d.cfg.variant k)
    (List.replicate ((d.cfg.ledCount - k) * bpl d.cfg.variant) (offByte d.cfg.variant))).mpr
    ⟨by rw [List.length_replicate, hs, Cfg.length, slotOffset, Nat.sub_mul]; omega, rfl⟩
  rw [hlen, hw]
  rfl

/-- A frame of colours that fit has the buffer's length. -/
theorem length_frameOf (cfg : Cfg) (cs : List Color) (h : cs.length ≤ cfg.ledCount) :
    (frameOf cfg cs).length = cfg.length := by
  rw [frameOf, List.length_append, length_encColors, List.length_replicate, ← Nat.add_mul, Cfg.length]
  congr 1
  omega

/-- The instance after a FILL_AND_PAD that fits. -/
def Driver.framed (d : Driver) (cs : List Color) : Driver :=
  { d with tb := d.tb.overwrite 0 (frameOf d.cfg cs) }

/-- FILL_AND_PAD is one write of the whole frame. -/
theorem Driver.fillAndPad_eq (d : Driver) (cs : List Color) (hs : d.tb.size = d.cfg.length) (hm : d.tb.wf)
    (h : cs.length ≤ d.cfg.ledCount) : d.fillAndPad cs = .ok (d.framed cs) := by
  have hle := Nat.mul_le_mul_right (bpl d.cfg.variant) h
  have hsize : 0 + (cs.flatMap (encColor d.cfg)).length
      + (List.replicate ((d.cfg.ledCount - cs.length) * bpl d.cfg.variant) (offByte d.cfg.variant)).length
      ≤ d.tb.size := by
    rw [length_encColors, List.length_replicate, hs, Cfg.length, Nat.sub_mul]; omega
  unfold Driver.fillAndPad
  rw [Driver.fill_eq d cs 0 hs hm, if_neg (by omega)]
  simp only [Nat.zero_add]
  rw [Driver.pad_eq _ _ (by simpa [Driver.filled] using hs) (by simpa [Driver.filled] using h)]
  have ho := Memory.overwrite_overwrite hm hsize
  simp only [Nat.zero_add, length_encColors] at ho
  simp only [Driver.filled, Driver.padded, Driver.framed, slotOffset, Nat.zero_mul, frameOf, ho]

/-- The buffer after a FILL_AND_PAD is the frame. -/
theorem Driver.framed_bytes (d : Driver) (cs : List Color) (hs : d.tb.size = d.cfg.length)
    (h : cs.length ≤ d.cfg.ledCount) : (d.framed cs).tb.bytes = frameOf d.cfg cs :=
  Memory.bytes_overwrite_all _ _ (by rw [length_frameOf _ _ h, hs])

/-- A frame keeps the instance well-formed. -/
theorem Driver.framed_wf {d : Driver} {n : Nat} (cs : List Color) (hd : d.wf n)
    (h : cs.length ≤ d.cfg.ledCount) : (d.framed cs).wf n := by
  obtain ⟨h1, h2, h3, h4, h5⟩ := hd
  exact ⟨h1, h2, h3, Memory.overwrite_wf h4 (by rw [length_frameOf _ _ h, h3]; omega), h5⟩

/-- A fill that fits keeps the instance well-formed. -/
theorem Driver.filled_wf {d : Driver} {n : Nat} (cs : List Color) (startSlot : Nat) (hd : d.wf n)
    (h : startSlot + cs.length ≤ d.cfg.ledCount) : (d.filled cs startSlot).wf n := by
  obtain ⟨h1, h2, h3, h4, h5⟩ := hd
  refine ⟨h1, h2, h3, Memory.overwrite_wf h4 ?_, h5⟩
  rw [length_encColors, h3, slotOffset, Cfg.length, ← Nat.add_mul]
  exact Nat.mul_le_mul_right _ (by omega)

end Sys2Proof.Machine
end

