-- ==== Sys2Proof/Laws/State.lean ====
section
/-! SUPPORT. What each update of the state leaves in each field, one lemma per field and update. -/

namespace Sys2Proof.Machine

@[simp] theorem State.respond_driver (s : State) (w : Word) : (s.respond w).driver = s.driver := rfl
@[simp] theorem State.respond_txlog (s : State) (w : Word) : (s.respond w).txlog = s.txlog := rfl
@[simp] theorem State.respond_responses (s : State) (w : Word) :
    (s.respond w).responses = s.responses ++ [w] := rfl
@[simp] theorem State.respond_cmdIn (s : State) (w : Word) : (s.respond w).cmdIn = s.cmdIn := rfl
@[simp] theorem State.respond_answers (s : State) (w : Word) : (s.respond w).answers = s.answers := rfl
@[simp] theorem State.respond_sends (s : State) (w : Word) : (s.respond w).sends = s.sends := rfl
@[simp] theorem State.respond_maxLeds (s : State) (w : Word) : (s.respond w).maxLeds = s.maxLeds := rfl

@[simp] theorem State.raise_driver (s : State) (e : ErrorKind) : (s.raise e).driver = s.driver := rfl
@[simp] theorem State.raise_txlog (s : State) (e : ErrorKind) : (s.raise e).txlog = s.txlog := rfl
@[simp] theorem State.raise_responses (s : State) (e : ErrorKind) :
    (s.raise e).responses = s.responses ++ [errorResponse e] := rfl
@[simp] theorem State.raise_cmdIn (s : State) (e : ErrorKind) : (s.raise e).cmdIn = s.cmdIn := rfl
@[simp] theorem State.raise_answers (s : State) (e : ErrorKind) : (s.raise e).answers = s.answers := rfl
@[simp] theorem State.raise_sends (s : State) (e : ErrorKind) : (s.raise e).sends = s.sends := rfl
@[simp] theorem State.raise_maxLeds (s : State) (e : ErrorKind) : (s.raise e).maxLeds = s.maxLeds := rfl

@[simp] theorem State.logSend_driver (s : State) (bs : List Byte) : (s.logSend bs).driver = s.driver := rfl
@[simp] theorem State.logSend_txlog (s : State) (bs : List Byte) :
    (s.logSend bs).txlog = s.txlog ++ [txEvent (s.answer 0) bs] := rfl
@[simp] theorem State.logSend_responses (s : State) (bs : List Byte) :
    (s.logSend bs).responses = s.responses := rfl
@[simp] theorem State.logSend_cmdIn (s : State) (bs : List Byte) : (s.logSend bs).cmdIn = s.cmdIn := rfl
@[simp] theorem State.logSend_answers (s : State) (bs : List Byte) :
    (s.logSend bs).answers = s.answers.tail := rfl
@[simp] theorem State.logSend_sends (s : State) (bs : List Byte) : (s.logSend bs).sends = s.sends + 1 := rfl
@[simp] theorem State.logSend_maxLeds (s : State) (bs : List Byte) : (s.logSend bs).maxLeds = s.maxLeds := rfl

@[simp] theorem State.hardwareReset_driver (s : State) : s.hardwareReset.driver = none := rfl
@[simp] theorem State.hardwareReset_txlog (s : State) : s.hardwareReset.txlog = [] := rfl
@[simp] theorem State.hardwareReset_responses (s : State) : s.hardwareReset.responses = [] := rfl
@[simp] theorem State.hardwareReset_cmdIn (s : State) : s.hardwareReset.cmdIn = s.cmdIn := rfl
@[simp] theorem State.hardwareReset_answers (s : State) : s.hardwareReset.answers = s.answers := rfl
@[simp] theorem State.hardwareReset_sends (s : State) : s.hardwareReset.sends = s.sends := rfl
@[simp] theorem State.hardwareReset_maxLeds (s : State) : s.hardwareReset.maxLeds = s.maxLeds := rfl

/-- Every kind of Invalid packet is answered alike. -/
theorem State.rejectPacket_eq (s : State) (e : Invalid) : s.rejectPacket e = s.raise .illegalCommand := by
  cases e <;> rfl

/-- A state's phase is Ready exactly when an instance exists. -/
theorem State.phase_ready_iff (s : State) : s.phase = .ready ↔ ∃ d, s.driver = some d := by
  cases h : s.driver <;> simp [State.phase, h]

/-- A state's phase is Unconfigured exactly when no instance exists. -/
theorem State.phase_unconfigured_iff (s : State) : s.phase = .unconfigured ↔ s.driver = none := by
  cases h : s.driver <;> simp [State.phase, h]

/-- After one send the answer to the next ones moves up by one. -/
theorem State.answer_logSend (s : State) (bs : List Byte) (k : Nat) :
    (s.logSend bs).answer k = s.answer (k + 1) := by
  cases h : s.answers with
  | nil => simp [State.answer, State.logSend, h, Nat.add_assoc, Nat.add_comm 1 k]
  | cons a as => simp [State.answer, State.logSend, h, Nat.add_assoc, Nat.add_comm 1 k]

/-- The answers do not depend on the instance. -/
@[simp] theorem State.answer_withDriver (s : State) (d : Option Driver) (k : Nat) :
    State.answer { s with driver := d } k = s.answer k := rfl

end Sys2Proof.Machine
end

