-- ==== Sys2Proof/Laws/Driver.lean ====
section
/-! SUPPORT. What the sends, CONFIGURE's and SHOW's shared operations do, said once (spec 42_driver
R126, R128, R134). -/

namespace Sys2Proof.Machine

/-- The buffers of one frame, in sending order (42 R128 steps 3 and 4). -/
def frameBuffers (v : Variant) (frame : List Byte) : List (List Byte) :=
  match v with
  | .standard => [frame]
  | .extended => [frame, resetBytes]

/-- What a well-formed instance hands to the transport. -/
theorem Driver.sendBuffers_eq (d : Driver) (hs : d.tb.size = d.cfg.length)
    (hr : d.rb = resetBufferOf d.cfg.variant) :
    d.sendBuffers = .ok (frameBuffers d.cfg.variant d.tb.bytes) := by
  have hread : d.tb.read 0 d.cfg.length = .ok d.tb.bytes := hs ▸ d.tb.read_all
  unfold Driver.sendBuffers
  rw [hread, hr]
  cases d.cfg.variant with
  | standard => rfl
  | extended =>
    simp only [resetBufferOf, frameBuffers, Memory.read, Memory.zeroed, bytesFrom_nil, resetBytes]
    rfl

/-- The frame of SHOW on a well-formed instance. -/
theorem Driver.frame_eq {d : Driver} {n : Nat} (cs : List Color) (hd : d.wf n)
    (h : cs.length ≤ d.cfg.ledCount) :
    d.frame cs = .ok (d.framed cs, frameBuffers d.cfg.variant (frameOf d.cfg cs)) := by
  have hf := Driver.framed_wf cs hd h
  obtain ⟨-, -, h3, h4, -⟩ := hd
  unfold Driver.frame
  rw [Driver.fillAndPad_eq d cs h3 h4 h]
  simp only
  rw [Driver.sendBuffers_eq _ hf.2.2.1 hf.2.2.2.2, Driver.framed_bytes d cs h3 h]
  rfl

/-- What CONFIGURE allocates is well-formed. -/
theorem Driver.allocate_wf {k n : Nat} (q : Rat) (v : Variant) (h1 : 1 ≤ k) (h2 : k ≤ n) :
    (Driver.allocate k q v).wf n :=
  ⟨h1, h2, rfl, Memory.zeroed_wf _, rfl⟩

/-- Sends touch `TXLOG`, the answers and the counter, and nothing else; `TXLOG` only grows. -/
theorem sendAll_frame (bufs : List (List Byte)) (s : State) :
    (sendAll bufs s).1.driver = s.driver ∧ (sendAll bufs s).1.responses = s.responses
      ∧ (sendAll bufs s).1.cmdIn = s.cmdIn ∧ (sendAll bufs s).1.maxLeds = s.maxLeds
      ∧ s.txlog <+: (sendAll bufs s).1.txlog := by
  induction bufs generalizing s with
  | nil => exact ⟨rfl, rfl, rfl, rfl, List.prefix_rfl⟩
  | cons b bufs ih =>
    have hp : s.txlog <+: (s.logSend b).txlog := List.prefix_append _ _
    unfold sendAll txSend
    cases s.answer 0 with
    | failed => exact ⟨rfl, rfl, rfl, rfl, hp⟩
    | ok =>
      obtain ⟨h1, h2, h3, h4, h5⟩ := ih (s.logSend b)
      exact ⟨h1, h2, h3, h4, hp.trans h5⟩

/-- The two ways one send can end. -/
theorem sendAll_one (b : List Byte) (s : State) : sendAll [b] s = (s.logSend b, s.answer 0) := by
  unfold sendAll txSend
  cases s.answer 0 <;> rfl

/-- The three ways two sends can end. -/
theorem sendAll_two (b c : List Byte) (s : State) :
    sendAll [b, c] s = match s.answer 0 with
      | .ok => ((s.logSend b).logSend c, s.answer 1)
      | .failed => (s.logSend b, .failed) := by
  unfold sendAll txSend
  cases s.answer 0 with
  | ok => simp only [sendAll_one, State.answer_logSend]
  | failed => rfl

/-- What CONFIGURE leaves alone, whatever the transport answers; it ends Ready or as it was. -/
theorem State.commission_frame (s : State) (d : Driver) (bufs : List (List Byte)) :
    ((s.commission d bufs).driver = some d ∨ (s.commission d bufs).driver = s.driver)
      ∧ (s.commission d bufs).cmdIn = s.cmdIn ∧ (s.commission d bufs).maxLeds = s.maxLeds
      ∧ s.txlog <+: (s.commission d bufs).txlog
      ∧ ∃ w, (s.commission d bufs).responses = s.responses ++ [w] := by
  obtain ⟨h1, h2, h3, h4, h5⟩ := sendAll_frame bufs s
  unfold State.commission
  split <;> rename_i s' heq <;> rw [heq] at h1 h2 h3 h4 h5
  · exact ⟨.inl rfl, h3, h4, h5, ⟨okResponse 0, by rw [← h2]; rfl⟩⟩
  · exact ⟨.inr h1, h3, h4, h5, ⟨errorResponse .transportError, by rw [← h2]; rfl⟩⟩

/-- What SHOW's sends leave alone, whatever the transport answers; the new frame stays. -/
theorem State.transmit_frame (s : State) (d : Driver) (bufs : List (List Byte)) :
    (s.transmit d bufs).driver = some d
      ∧ (s.transmit d bufs).cmdIn = s.cmdIn ∧ (s.transmit d bufs).maxLeds = s.maxLeds
      ∧ s.txlog <+: (s.transmit d bufs).txlog
      ∧ ∃ w, (s.transmit d bufs).responses = s.responses ++ [w] := by
  obtain ⟨h1, h2, h3, h4, h5⟩ := sendAll_frame bufs { s with driver := some d }
  unfold State.transmit
  split <;> rename_i s' heq <;> rw [heq] at h1 h2 h3 h4 h5
  · exact ⟨h1, h3, h4, h5, ⟨okResponse 0, by rw [show s.responses = s'.responses from h2.symm]; rfl⟩⟩
  · exact ⟨h1, h3, h4, h5,
      ⟨errorResponse .transportError, by rw [show s.responses = s'.responses from h2.symm]; rfl⟩⟩

/-- The frame of SHOW raises no error other than what FILL raises, and keeps `CFG` and RB. -/
theorem Driver.frame_cfg {d d' : Driver} {cs : List Color} {bufs : List (List Byte)}
    (h : d.frame cs = .ok (d', bufs)) : d'.cfg = d.cfg ∧ d'.rb = d.rb ∧ d'.tb.size = d.tb.size := by
  have loop : ∀ (cs : List Color) (off : Nat) (m m' : Memory) (o : Nat),
      fillLoop d.cfg off cs m = .ok (m', o) → m'.size = m.size := by
    intro cs
    induction cs with
    | nil => intro off m m' o h; simp only [fillLoop, Except.ok.injEq, Prod.mk.injEq] at h; rw [h.1]
    | cons c cs ih =>
      intro off m m' o h
      rw [fillLoop] at h
      split at h
      · cases h
      · rename_i m1 hw
        rw [ih _ _ _ _ h, ((Memory.write_ok_iff ..).mp hw).2, Memory.overwrite_size]
  unfold Driver.frame at h
  split at h
  · cases h
  · rename_i d1 hd1
    split at h
    · cases h
    · simp only [Except.ok.injEq, Prod.mk.injEq] at h
      obtain ⟨rfl, -⟩ := h
      unfold Driver.fillAndPad at hd1
      split at hd1
      · cases hd1
      · rename_i d2 k hd2
        unfold Driver.fill at hd2
        split at hd2
        · cases hd2
        · split at hd2
          · cases hd2
          · rename_i tb off hloop
            simp only [Except.ok.injEq, Prod.mk.injEq] at hd2
            obtain ⟨rfl, -⟩ := hd2
            have hsz := loop _ _ _ _ _ hloop
            unfold Driver.pad at hd1
            split at hd1
            · cases hd1
            · rename_i tb' hw
              simp only [Except.ok.injEq] at hd1
              subst hd1
              exact ⟨rfl, rfl, by
                simp only [((Memory.write_ok_iff ..).mp hw).2, Memory.overwrite_size, hsz]⟩

end Sys2Proof.Machine
end

