-- ==== Sys2Proof/Laws/Commands.lean ====
section
/-! SUPPORT. What each host command does on a state that meets `State.Inv`, said once over the shared
operations (spec 41_frame_buffer R119, 42_driver R126, R128), and how its sends can end (R134). -/

namespace Sys2Proof.Machine

/-! ## How the sends end -/

/-- The log after a frame whose sends all answered ok. -/
def State.sentAll (s : State) (v : Variant) (frame : List Byte) : State :=
  match v with
  | .standard => s.logSend frame
  | .extended => (s.logSend frame).logSend resetBytes

/-- CONFIGURE whose sends succeed ends with the instance and OK. -/
theorem State.commission_ok (s : State) (d : Driver) (v : Variant) (frame : List Byte)
    (h : s.sendsSucceed v) :
    s.commission d (frameBuffers v frame)
      = State.respond { s.sentAll v frame with driver := some d } (okResponse 0) := by
  obtain ⟨h0, h1⟩ := h
  cases v with
  | standard => simp only [State.commission, frameBuffers, sendAll_one, h0, State.sentAll]
  | extended => simp only [State.commission, frameBuffers, sendAll_two, h0, h1 rfl, State.sentAll]

/-- CONFIGURE whose frame send fails ends with TransportError after that one send. -/
theorem State.commission_frame_failed (s : State) (d : Driver) (v : Variant) (frame : List Byte)
    (h : s.answer 0 = .failed) :
    s.commission d (frameBuffers v frame) = (s.logSend frame).raise .transportError := by
  cases v <;> simp only [State.commission, frameBuffers, sendAll_one, sendAll_two, h]

/-- CONFIGURE whose reset send fails ends with TransportError after both sends. -/
theorem State.commission_reset_failed (s : State) (d : Driver) (frame : List Byte)
    (h : s.answer 0 = .ok) (h' : s.answer 1 = .failed) :
    s.commission d (frameBuffers .extended frame)
      = ((s.logSend frame).logSend resetBytes).raise .transportError := by
  simp only [State.commission, frameBuffers, sendAll_two, h, h']

/-- SHOW whose sends succeed ends with OK. -/
theorem State.transmit_ok (s : State) (d : Driver) (v : Variant) (frame : List Byte)
    (h : s.sendsSucceed v) :
    s.transmit d (frameBuffers v frame)
      = State.respond (State.sentAll { s with driver := some d } v frame) (okResponse 0) := by
  obtain ⟨h0, h1⟩ := h
  cases v with
  | standard =>
    simp only [State.transmit, frameBuffers, sendAll_one, State.answer_withDriver, h0,
      State.housekeeping, State.sentAll]
  | extended =>
    simp only [State.transmit, frameBuffers, sendAll_two, State.answer_withDriver, h0, h1 rfl,
      State.housekeeping, State.sentAll]

/-- SHOW whose frame send fails ends with TransportError after that one send. -/
theorem State.transmit_frame_failed (s : State) (d : Driver) (v : Variant) (frame : List Byte)
    (h : s.answer 0 = .failed) :
    s.transmit d (frameBuffers v frame)
      = (State.logSend { s with driver := some d } frame).raise .transportError := by
  cases v <;> simp only [State.transmit, frameBuffers, sendAll_one, sendAll_two,
    State.answer_withDriver, h]

/-- SHOW whose reset send fails ends with TransportError after both sends. -/
theorem State.transmit_reset_failed (s : State) (d : Driver) (frame : List Byte)
    (h : s.answer 0 = .ok) (h' : s.answer 1 = .failed) :
    s.transmit d (frameBuffers .extended frame)
      = ((State.logSend { s with driver := some d } frame).logSend resetBytes).raise .transportError := by
  simp only [State.transmit, frameBuffers, sendAll_two, State.answer_withDriver, h, h']

/-! ## The commands -/

/-- All that CONFIGURE does without an instance. -/
theorem execConfigure_eq (s : State) (n : Int) (q : Rat) (v : Variant) (h : s.driver = none) :
    execConfigure n q v s
      = .next (if n ≤ 0 ∨ (s.maxLeds : Int) < n then s.raise .configurationError
          else s.commission ((Driver.allocate n.toNat q v).framed [])
            (frameBuffers v (frameOf { ledCount := n.toNat, intensity := q, variant := v } []))) := by
  unfold execConfigure
  rw [h]
  dsimp only
  split
  · rfl
  · rw [Driver.frame_eq [] (Driver.allocate_wf (n := n.toNat) q v (by omega) le_rfl) (by simp)]
    rfl

/-- All that FILL does with an instance. -/
theorem execFill_eq (s : State) (d : Driver) (cs : List Color) (k : Nat) (hi : s.Inv)
    (h : s.driver = some d) :
    execFill cs k s
      = .next (if d.cfg.ledCount < k + cs.length then s.raise .overflowError
          else State.respond { s with driver := some (d.filled cs k) } (okResponse (k + cs.length))) := by
  have hw := hi.2.2 d (by simp [h])
  unfold execFill
  rw [h]
  dsimp only
  rw [Driver.fill_eq d cs k hw.2.2.1 hw.2.2.2.1]
  by_cases hc : d.cfg.ledCount < k + cs.length <;> simp only [hc, if_true, if_false]

/-- All that SHOW does with an instance. -/
theorem execShowFrame_eq (s : State) (d : Driver) (cs : List Color) (hi : s.Inv) (h : s.driver = some d) :
    execShowFrame cs s
      = .next (if d.cfg.ledCount < cs.length then s.raise .overflowError
          else s.transmit (d.framed cs) (frameBuffers d.cfg.variant (frameOf d.cfg cs))) := by
  unfold execShowFrame
  rw [h]
  dsimp only
  split
  · rfl
  · rw [Driver.frame_eq cs (hi.2.2 d (by simp [h])) (by omega)]

end Sys2Proof.Machine
end

