-- ==== Sys2Proof/Laws/Encoding.lean ====
section
/-! SUPPORT. The fields of the words the encoder makes, that a word is its fields joined, and that the
fixed-point intensity of a packet is exact (spec 30_encoding R71, R74, R77). -/

namespace Sys2Proof

/-- A field that lies in the more significant part of two joined bit strings. -/
theorem field_of_high {a b : Nat} (x : BitVec a) (y : BitVec b) (s l : Nat) (h : b ≤ s) :
    (x ++ y).extractLsb' s l = x.extractLsb' (s - b) l :=
  BitVec.extractLsb'_append_eq_of_le h

/-- A field that lies in the less significant part of two joined bit strings. -/
theorem field_of_low {a b : Nat} (x : BitVec a) (y : BitVec b) (s l : Nat) (h : s + l ≤ b) :
    (x ++ y).extractLsb' s l = y.extractLsb' s l :=
  BitVec.extractLsb'_append_eq_of_add_le h

/-- The less significant part of two joined bit strings. -/
theorem field_low {a b : Nat} (x : BitVec a) (y : BitVec b) : (x ++ y).extractLsb' 0 b = y :=
  (field_of_low x y 0 b (by omega)).trans BitVec.extractLsb'_eq_self

/-- The fields of a FILL header (30 R71). -/
theorem headerFill_fields (n : BitVec 16) :
    opcodeOf (headerFill n) = 2#8 ∧ (headerFill n).extractLsb' 16 8 = 0#8
      ∧ (headerFill n).extractLsb' 0 16 = n :=
  ⟨(field_of_high (0x02#8 ++ 0#8) n 24 8 (by decide)).trans (by decide),
    (field_of_high (0x02#8 ++ 0#8) n 16 8 (by decide)).trans (by decide), field_low (0x02#8 ++ 0#8) n⟩

/-- The fields of a CONFIGURE header (30 R71). -/
theorem headerConfigure_fields (n : BitVec 16) (v : Variant) :
    opcodeOf (headerConfigure n v) = 1#8 ∧ (headerConfigure n v).extractLsb' 17 7 = 0#7
      ∧ (headerConfigure n v).extractLsb' 0 16 = n
      ∧ variantOfBit ((headerConfigure n v).getLsbD 16) = v := by
  have hbit : (headerConfigure n v).getLsbD 16 = decide (v = .extended) := by
    have h : (headerConfigure n v).extractLsb' 16 1 = bitOfVariant v :=
      (field_of_high (0x01#8 ++ 0#7 ++ bitOfVariant v) n 16 1 (by decide)).trans
        (field_low (0x01#8 ++ 0#7) (bitOfVariant v))
    have h0 := congrArg (fun b => b.getLsbD 0) h
    simp only [BitVec.getLsbD_extractLsb', Nat.add_zero] at h0
    cases v <;> simpa [bitOfVariant] using h0
  refine ⟨(field_of_high (0x01#8 ++ 0#7 ++ bitOfVariant v) n 24 8 (by decide)).trans ?_,
    (field_of_high (0x01#8 ++ 0#7 ++ bitOfVariant v) n 17 7 (by decide)).trans ?_,
    field_low (0x01#8 ++ 0#7 ++ bitOfVariant v) n, ?_⟩
  · cases v <;> decide
  · cases v <;> decide
  · rw [hbit]; cases v <;> rfl

/-- The fields of a colour word (30 R77). -/
theorem joinedBytes_fields (r g b : BitVec 8) :
    (0#8 ++ r ++ g ++ b : Word).extractLsb' 24 8 = 0#8 ∧ (0#8 ++ r ++ g ++ b : Word).extractLsb' 16 8 = r
      ∧ (0#8 ++ r ++ g ++ b : Word).extractLsb' 8 8 = g ∧ (0#8 ++ r ++ g ++ b : Word).extractLsb' 0 8 = b := by
  refine ⟨?_, ?_, ?_, field_low (0#8 ++ r ++ g) b⟩
  · exact (field_of_high (0#8 ++ r ++ g) b 24 8 (by decide)).trans
      ((field_of_high (0#8 ++ r) g 16 8 (by decide)).trans
        ((field_of_high 0#8 r 8 8 (by decide)).trans (by decide)))
  · exact (field_of_high (0#8 ++ r ++ g) b 16 8 (by decide)).trans
      ((field_of_high (0#8 ++ r) g 8 8 (by decide)).trans (field_low 0#8 r))
  · exact (field_of_high (0#8 ++ r ++ g) b 8 8 (by decide)).trans (field_low (0#8 ++ r) g)

/-- A word is its fields 31:24, 23:16, 15:8 and 7:0 joined (30 R77). -/
theorem word_eq_bytes (w : Word) :
    (w.extractLsb' 24 8 ++ w.extractLsb' 16 8 ++ w.extractLsb' 8 8 ++ w.extractLsb' 0 8 : Word) = w := by
  rw [BitVec.extractLsb'_append_extractLsb'_eq_extractLsb' (by rfl),
    BitVec.extractLsb'_append_extractLsb'_eq_extractLsb' (by rfl),
    BitVec.extractLsb'_append_extractLsb'_eq_extractLsb' (by rfl)]
  exact BitVec.extractLsb'_eq_self

/-- A header is its fields 31:24, 23:16 and 15:0 joined (30 R71 format HF). -/
theorem word_eq_fields_fill (w : Word) :
    (w.extractLsb' 24 8 ++ w.extractLsb' 16 8 ++ w.extractLsb' 0 16 : Word) = w := by
  rw [BitVec.extractLsb'_append_extractLsb'_eq_extractLsb' (by rfl),
    BitVec.extractLsb'_append_extractLsb'_eq_extractLsb' (by rfl)]
  exact BitVec.extractLsb'_eq_self

/-- A header is its fields 31:24 and 23:0 joined (30 R71 format HS). -/
theorem word_eq_fields_show (w : Word) : (w.extractLsb' 24 8 ++ w.extractLsb' 0 24 : Word) = w := by
  rw [BitVec.extractLsb'_append_extractLsb'_eq_extractLsb' (by rfl)]
  exact BitVec.extractLsb'_eq_self

/-- A header is its fields 31:24, 23:17, 16 and 15:0 joined (30 R71 format HC). -/
theorem word_eq_fields_configure (w : Word) :
    (w.extractLsb' 24 8 ++ w.extractLsb' 17 7 ++ w.extractLsb' 16 1 ++ w.extractLsb' 0 16 : Word) = w := by
  rw [BitVec.extractLsb'_append_extractLsb'_eq_extractLsb' (by rfl),
    BitVec.extractLsb'_append_extractLsb'_eq_extractLsb' (by rfl),
    BitVec.extractLsb'_append_extractLsb'_eq_extractLsb' (by rfl)]
  exact BitVec.extractLsb'_eq_self

/-- The variant bit read and written back. -/
theorem bitOfVariant_variantOfBit (w : Word) :
    bitOfVariant (variantOfBit (w.getLsbD 16)) = w.extractLsb' 16 1 := by
  apply BitVec.eq_of_getLsbD_eq
  intro i hi
  obtain rfl : i = 0 := by omega
  simp only [BitVec.getLsbD_extractLsb', Nat.add_zero]
  cases w.getLsbD 16 <;> simp [variantOfBit, bitOfVariant]

/-- The intensity of a packet gives its word back (30 R74). -/
theorem fixedPoint_of_mkRat (i : Int) :
    (mkRat i 65536).num * 65536 / ((mkRat i 65536).den : Int) = i := by
  have h : (mkRat i 65536).num * 65536 = i * (mkRat i 65536).den := by
    refine (Rat.divInt_eq_divInt_iff (by simp) (by decide)).mp ?_
    rw [Rat.num_divInt_den, Rat.mkRat_eq_divInt]
    rfl
  rw [h, Int.mul_ediv_cancel _ (by simp)]

/-- An intensity on the packet's grid is the intensity its word stands for (30 R74). -/
theorem mkRat_of_fixedPoint (q : Rat) (h : 65536 % q.den = 0) :
    mkRat (q.num * 65536 / (q.den : Int)) 65536 = q := by
  obtain ⟨k, hk⟩ := Nat.dvd_of_mod_eq_zero h
  have hd : (q.den : Int) ≠ 0 := by simp
  have hk' : (65536 : Int) = q.den * k := by exact_mod_cast hk
  have hdiv : q.num * 65536 / (q.den : Int) = q.num * k := by
    rw [hk', show q.num * ((q.den : Int) * k) = q.num * k * q.den by ring, Int.mul_ediv_cancel _ hd]
  rw [hdiv]
  conv_rhs => rw [← Rat.num_divInt_den q]
  rw [Rat.mkRat_eq_divInt, Rat.divInt_eq_divInt_iff (by decide) hd]
  push_cast
  rw [hk']
  ring

/-- The denominator of a packet's intensity divides 65536 (30 R74). -/
theorem den_mkRat_dvd (i : Int) : 65536 % (mkRat i 65536).den = 0 := by
  apply Nat.mod_eq_zero_of_dvd
  have h := Rat.den_dvd i 65536
  rw [Rat.mkRat_eq_divInt]
  exact_mod_cast h

end Sys2Proof
end

