-- ==== Sys2Proof/Laws/PerInstr.lean ====
section
/-! SUPPORT. The statement made of every instruction: its header word lies in its own row of the opcode
map, `(word0 AND mask) = match` (spec 30_encoding R72). -/

namespace Sys2Proof.Laws.HeaderMatch

/-- The mask of the instruction's row of the opcode map (30 R72). -/
def rowMask : Instr → Word
  | .configure _ _ _ => 0xFFFE0000#32
  | .fill _ _ => 0xFFFF0000#32
  | .showFrame _ => 0xFFFFFFFF#32

/-- The match value of the instruction's row of the opcode map (30 R72). -/
def rowMatch : Instr → Word
  | .configure _ _ _ => 0x01000000#32
  | .fill _ _ => 0x02000000#32
  | .showFrame _ => 0x03000000#32

/-- The packet's word 0 matches the instruction's row. -/
def Statement (i : Instr) : Prop := ∃ h rest, encode i = h :: rest ∧ h &&& rowMask i = rowMatch i

/-- A word with no bit below 16 masks to itself what stands above, whatever stands below. -/
theorem masked_append (hi : BitVec 16) (lo : BitVec 16) (m : BitVec 16) :
    (hi ++ lo : Word) &&& (m ++ 0#16 : Word) = (hi &&& m) ++ 0#16 := by
  rw [BitVec.and_append]
  simp

theorem configure (ledCount : Int) (intensity : Rat) (variant : Variant) :
    Statement (.configure ledCount intensity variant) := by
  refine ⟨_, _, rfl, ?_⟩
  have h := masked_append (0x01#8 ++ 0#7 ++ bitOfVariant variant) (BitVec.ofInt 16 ledCount) 0xFFFE#16
  cases variant <;> exact h

theorem fill (colors : List Color) (startSlot : Nat) : Statement (.fill colors startSlot) :=
  ⟨_, _, rfl, masked_append (0x02#8 ++ 0#8) (BitVec.ofNat 16 startSlot) 0xFFFF#16⟩

theorem showFrame (colors : List Color) : Statement (.showFrame colors) := ⟨headerShow, _, rfl, (by decide : headerShow &&& 0xFFFFFFFF#32 = 0x03000000#32)⟩

end Sys2Proof.Laws.HeaderMatch
end

