-- ==== Sys2Proof/Tests/Slice0.lean ====
section
/-! SUPPORT. Tests whose expected results stand in the spec (95_test_vectors; 30 R85; 40 R91 to R102), one
step each, and for every statement with hypotheses a state and operands that meet them together. -/

namespace Sys2Proof.Tests
open Sys2Proof.Machine

/-! ## Helpers -/

/-- An instance whose TransportBuffer holds `bytes`. -/
def driverWith (v : Variant) (q : Rat) (bytes : List Byte) : Driver :=
  { cfg := { ledCount := bytes.length / bpl v, intensity := q, variant := v }
    tb := { size := bytes.length, cells := cellsOf 0 bytes }
    rb := resetBufferOf v }

/-- The instance a CONFIGURE of `n` LEDs leaves. -/
def freshDriver (n : Nat) (v : Variant) (q : Rat) : Driver :=
  driverWith v q (List.replicate (n * bpl v) (offByte v))

/-- Ready with the instance; the transport will answer `answers`. -/
def readyWith (d : Driver) (answers : List SendAnswer) : State :=
  { State.reset with driver := some d, answers := answers }

/-- After reset; the transport will answer `answers`. -/
def resetWith (answers : List SendAnswer) : State := { State.reset with answers := answers }

/-- What a test looks at: the buffer, the log and the responses. -/
def seen (o : Host.Outcome State Fault Refusal) : Option (Option (List Byte) × List TxEvent × List Word) :=
  match o with
  | .next t => some (t.driver.map fun d => d.tb.bytes, t.txlog, t.responses)
  | _ => none

/-- Run one packet. -/
def run1 (s : State) (p : Packet) : Option (Option (List Byte) × List TxEvent × List Word) :=
  seen (step (s.presentFirst p))

/-- `n` copies of the Standard pad. -/
def std (n : Nat) : List Byte := List.replicate n 0x11#8

/-- `n` zero bytes. -/
def zeros (n : Nat) : List Byte := List.replicate n 0x00#8

/-- The decoder refuses the packet. -/
def invalid (p : Packet) : Bool :=
  match decode p with
  | .ok _ => false
  | .error _ => true

/-- The Standard encoding of (1,2,3) at intensity 1 (95 V12). -/
def frame123 : List Byte :=
  [0x11#8, 0x11#8, 0x11#8, 0x31#8, 0x11#8, 0x11#8, 0x11#8, 0x13#8, 0x11#8, 0x11#8, 0x11#8, 0x33#8]

/-- The Extended encoding of (1,2,3) at intensity 1 (95 V14). -/
def frame123e : List Byte :=
  [0x84#8, 0x21#8, 0x08#8, 0x43#8, 0xD0#8, 0x84#8, 0x21#8, 0x08#8, 0x42#8, 0x1E#8,
   0x84#8, 0x21#8, 0x08#8, 0x43#8, 0xDE#8]


/-! ## WellFormed: an ill-formed term for each check -/

/-- 30 R78: a LED count above the 16-bit field. -/
theorem test_wf_ledCount : Instr.wellFormed (.configure 65536 1 .standard) = false := by decide

/-- 30 R78: a negative LED count. -/
theorem test_wf_ledCount_negative : Instr.wellFormed (.configure (-1) 1 .standard) = false := by decide

/-- 30 R74: a negative intensity. -/
theorem test_wf_intensity_negative :
    Instr.wellFormed (.configure 1 (mkRat (-1) 2) .standard) = false := by decide

/-- 30 R74: an intensity off the 2^-16 grid. -/
theorem test_wf_intensity_grid :
    Instr.wellFormed (.configure 1 (mkRat 1 3) .standard) = false := by decide

/-- 30 R74: an intensity of 65536. -/
theorem test_wf_intensity_large : Instr.wellFormed (.configure 1 65536 .standard) = false := by decide

/-- 30 R78: a start slot above the 16-bit field. -/
theorem test_wf_startSlot : Instr.wellFormed (.fill [] 65536) = false := by decide

/-- 30 R77: a channel above 255 in each command that carries colours. -/
theorem test_wf_channel :
    Instr.wellFormed (.fill [⟨256, 0, 0⟩] 0) = false
      ∧ Instr.wellFormed (.showFrame [⟨0, 256, 0⟩]) = false := by decide

/-- 30 R77: a negative channel. -/
theorem test_wf_channel_negative : Instr.wellFormed (.showFrame [⟨0, 0, -1⟩]) = false := by decide


/-! ## Decode: words written out from 30 R71 to R79 -/

/-- 30 R71 format HC, R74: `01 | 0000000 | 1 | 0004`, intensity 8000. -/
theorem test_decode_configure :
    decode [0b00000001_0000000_1_0000000000000100#32, 0x00008000#32] = .ok (.configure 4 (mkRat 1 2)
        .extended) := by decide

/-- 95 section 6: the largest CONFIGURE. -/
theorem test_decode_configure_max :
    decode [0x0101FFFF#32, 0xFFFFFFFF#32] = .ok (.configure 65535 (mkRat 4294967295 65536) .extended) := by decide

/-- 30 R71 format HF, R77: `02 | 00 | 0001`, colour `00 | FF | 00 | 80`. -/
theorem test_decode_fill :
    decode [0b00000010_00000000_0000000000000001#32, 0b00000000_11111111_00000000_10000000#32] = .ok
        (.fill [⟨255, 0, 128⟩] 1) := by decide

/-- 30 R71 format HS, R77: `03 | 000000`, colours in list order. -/
theorem test_decode_show :
    decode [0b00000011_000000000000000000000000#32, 0x000A141E#32, 0x00010203#32] = .ok (.showFrame
        [⟨10, 20, 30⟩, ⟨1, 2, 3⟩]) := by decide

/-- 30 R80, 95 V16, V17: the reserved opcodes at the edges. -/
theorem test_decode_opcodes :
    invalid [0x00000000#32] = true
      ∧ invalid [0x04000000#32] = true
      ∧ invalid [0xFFFFFFFF#32] = true := by decide

/-- 30 R80, 95 V18 to V21: a reserved bit in each header and in a colour word. -/
theorem test_decode_reserved :
    invalid [0x03000001#32] = true
      ∧ invalid [0x03000000#32, 0x01000000#32] = true
      ∧ invalid [0x02010000#32] = true
      ∧ invalid [0x01020001#32, 0x00010000#32] = true := by decide

/-- 30 R79, 95 V22, V23: CONFIGURE of 1 and of 3 words, and the empty packet. -/
theorem test_decode_length :
    invalid [0x01000001#32] = true
      ∧ invalid [0x01000001#32, 0x00010000#32, 0x00000000#32] = true
      ∧ invalid [] = true := by decide

/-- 30 R71: the opcode table's words, the words above `nbits` zero. -/
theorem test_decodeTableWord :
    decodeTableWord 32 0x01000005 = some (.configure 5 0 .standard)
      ∧ decodeTableWord 32 0x02000000 = some (.fill [] 0)
      ∧ decodeTableWord 32 0x03000000 = some (.showFrame [])
      ∧ decodeTableWord 64 0x0001000001000002 = some (.configure 2 1 .standard) := by decide

/-- 30 R83: a numeral above its field is rejected, 65535 is not. -/
theorem test_assembler_range :
    assembleText "CONFIGURE 65536" = .error .countTooLarge
      ∧ assembleText "CONFIGURE 65535" = .ok [0x0100FFFF#32, 0x00010000#32]
      ∧ assembleText "SHOW (256,0,0)" = .error .channelTooLarge
      ∧ assembleText "CONFIGURE 1, intensity=65536" = .error .intensityOutOfRange := by
  refine ⟨?_, ?_, ?_, ?_⟩ <;> decide

/-- 30 R83: `<q>` is a decimal numeral or a fraction, so a `0x` numeral is no line. -/
theorem test_assembler_intensity :
    assembleText "CONFIGURE 1, intensity=0x10" = .error .notALine
      ∧ assembleText "CONFIGURE 1, intensity=2" = .ok [0x01000001#32, 0x00020000#32]
      ∧ assembleText "CONFIGURE 1, intensity=3/2" = .ok [0x01000001#32, 0x00018000#32] := by
  refine ⟨?_, ?_, ?_⟩ <;> decide

/-- 30 R74, R83: 0.1 and the fraction 1/10 become 0x1999; a `0x` numeral; a start slot. -/
theorem test_assembler_forms :
    assembleText "CONFIGURE 0x10, intensity=0.1" = .ok [0x01000010#32, 0x00001999#32]
      ∧ assembleText "CONFIGURE 16, intensity=1/10, variant=STD" = .ok [0x01000010#32, 0x00001999#32]
      ∧ assembleText "CLEAR 1" = .error .notALine := by
  refine ⟨?_, ?_, ?_⟩ <;> decide


/-! ## ChannelEncoder: 40 R91 to R102, 95 sections 2 and 3 -/

/-- 40 R91: identity, rounding down, wraps, negative channel, negative intensity. -/
theorem test_scale :
    scale 255 1 = 255#8
      ∧ scale 7 (mkRat 1 2) = 3#8
      ∧ scale 200 (mkRat 3 2) = 44#8
      ∧ scale 256 1 = 0#8
      ∧ scale (-1) 1 = 255#8
      ∧ scale 1 (mkRat (-1) 2) = 255#8 := by decide

/-- 95 section 2: the packet's 0.1 gives 19, exact 0.1 gives 20; the largest intensity. -/
theorem test_scale_exact :
    scale 200 (mkRat 6553 65536) = 19#8
      ∧ scale 200 (mkRat 1 10) = 20#8
      ∧ scale 255 (mkRat 4294967295 65536) = 255#8 := by decide

/-- 40 R93. -/
theorem test_encStd :
    encStd 0x1B#8 = [0x11#8, 0x13#8, 0x31#8, 0x33#8]
      ∧ encStd 20#8 = [0x11#8, 0x13#8, 0x13#8, 0x11#8] := by decide

/-- 40 R95: a symbol that straddles bytes, and alternating bits. -/
theorem test_encExt :
    encExt 2#8 = [0x84#8, 0x21#8, 0x08#8, 0x43#8, 0xD0#8]
      ∧ encExt 0x55#8 = [0x87#8, 0xA1#8, 0xE8#8, 0x7A#8, 0x1E#8]
      ∧ encExt 20#8 = [0x84#8, 0x21#8, 0xE8#8, 0x7A#8, 0x10#8] := by decide

/-- 40 R101, 95 section 3. -/
theorem test_decStd :
    decStd [0x13#8, 0x31#8, 0x13#8, 0x11#8] = some 100#8
      ∧ decStd [0x11#8, 0x12#8, 0x11#8, 0x11#8] = none
      ∧ decStd (zeros 4) = none := by decide

/-- 40 R102, 95 section 3. -/
theorem test_decExt :
    decExt [0x87#8, 0xBD#8, 0x08#8, 0x7A#8, 0x10#8] = some 100#8
      ∧ decExt (zeros 5) = none
      ∧ decExt [0x84#8, 0x21#8, 0x08#8, 0x42#8, 0x11#8] = none := by decide

/-- 95 S3: green first. -/
theorem test_encColor :
    encColor ⟨1, 1, .standard⟩ ⟨10, 20, 30⟩ = [0x11#8, 0x13#8, 0x13#8, 0x11#8, 0x11#8, 0x11#8, 0x31#8,
        0x31#8, 0x11#8, 0x13#8, 0x33#8, 0x31#8] := by decide

/-- 20 R43: 12s + 5 is red byte 1, 15s + 10 is blue byte 0. -/
theorem test_channelOffset :
    channelOffset .standard 2 1 1 = 29
      ∧ channelOffset .extended 2 2 0 = 40 := by decide


/-! ## Memory: 00 R13, 20 R57 -/

/-- A write of 0x00 removes the entry, and a write past the end answers bufferRange. -/
theorem test_memory_write :
    (driverWith .standard 1 (std 12)).tb.write 11 [0x00#8] = .ok ⟨12, cellsOf 0 (std 11)⟩
      ∧ (Memory.zeroed 12).write 12 [0x11#8] = .error .bufferRange
      ∧ (Memory.zeroed 12).read 0 13 = .error .bufferRange := by decide


/-! ## CONFIGURE: 42 R126; 95 V2, V7 -/

/-- 95 V2. -/
theorem test_configure_ext :
    run1 (resetWith [.ok, .ok]) [0x01010001#32, 0x00010000#32] = some (some (zeros 15), [.sent (zeros
        15), .sent (zeros 150)], [0x00000000#32]) := by decide

/-- 95 V7: a failed reset send leaves Unconfigured and its log entries. -/
theorem test_configure_failed :
    run1 (resetWith [.ok, .failed]) [0x01010001#32, 0x00010000#32] = some (none, [.sent (zeros 15),
        .failed (zeros 150)], [0x03000000#32]) := by decide


/-! ## FILL: 41 R111, R112; 95 S5, F6 -/

/-- 95 S5: slots 0 and 2 keep their bytes. -/
theorem test_fill_middle :
    run1 (readyWith (driverWith .standard 1 (frame123 ++ std 12 ++ frame123)) []) [0x02000001#32,
        0x00FF0000#32] = some (some (frame123 ++ std 4 ++ List.replicate 4 0x33#8 ++ std 4 ++ frame123),
        [], [0x00000002#32]) := by decide

/-- 95 F6: a fill of which the first colour would fit writes nothing. -/
theorem test_fill_overflow :
    run1 (readyWith (freshDriver 2 .standard 1) []) [0x02000001#32, 0x00010203#32, 0x00040506#32] = some
        (some (std 24), [], [0x02000000#32]) := by decide


/-! ## SHOW: 42 R128; 95 section 4, V14 -/

/-- 95 V14: the reset send fails; the new frame stays. -/
theorem test_show_failed :
    run1 (readyWith (freshDriver 1 .extended 1) [.ok, .failed]) [0x03000000#32, 0x00010203#32] = some
        (some frame123e, [.sent frame123e, .failed (zeros 150)], [0x03000000#32]) := by decide

/-- 95 section 4, stale data: slot 1 is zeroed. -/
theorem test_show_stale :
    run1 (readyWith (driverWith .extended 1 (frame123e ++ frame123e)) [.ok, .ok]) [0x03000000#32,
        0x00010203#32] = some (some (frame123e ++ zeros 15), [.sent (frame123e ++ zeros 15), .sent
        (zeros 150)], [0x00000000#32]) := by decide


/-! ## Invalid packets, the idle step, reset -/

/-- 95 V19: an Invalid packet is answered and executed in no part. -/
theorem test_invalid_packet :
    run1 (readyWith (freshDriver 1 .standard 1) [.ok]) [0x03000000#32, 0x01000000#32] = some (some (std
        12), [], [0x04000000#32]) := by decide

/-- 60 R161: with no packet the block keeps all state. -/
theorem test_idle :
    seen (step (readyWith (freshDriver 1 .standard 1) [])) = some (some (std 12), [], []) := by decide

/-- 70 R170: reset ends the instance. -/
theorem test_hardwareReset :
    (readyWith (freshDriver 1 .standard 1) []).hardwareReset = State.reset := by decide

/-- 20 R54: a packet presented behind another waits; the first is taken. -/
theorem test_present :
    (((State.reset.present [0x03000000#32]).present []).takePacket).map Prod.fst = some [0x03000000#32] := by decide


/-! ## Witnesses: a state and operands that meet the hypotheses of each statement -/

/-- A Standard instance of 2 LEDs. -/
def d2 : Driver := freshDriver 2 .standard 1

/-- An Extended instance of 1 LED. -/
def e1 : Driver := freshDriver 1 .extended 1

/-- One CONFIGURE packet presented after reset, the transport answering ok. -/
def sConf : State := (resetWith [.ok, .ok]).presentFirst [0x01000001#32, 0x00010000#32]

/-- One SHOW packet presented to an Extended instance whose frame send will fail. -/
def sShow : State := (readyWith e1 [.failed]).presentFirst [0x03000000#32, 0x00010203#32]

/-- One SHOW packet presented to a Standard instance. -/
def sShowStd : State := (readyWith d2 [.ok]).presentFirst [0x03000000#32, 0x00010203#32]

/-- One FILL packet presented to a Standard instance. -/
def sFill : State := (readyWith d2 []).presentFirst [0x02000001#32, 0x00FFFFFF#32]

/-- The step answers a next state. -/
def goesOn (o : Host.Outcome State Fault Refusal) : Bool :=
  match o with
  | .next _ => true
  | _ => false

theorem exists_of_goesOn {o : Host.Outcome State Fault Refusal} (h : goesOn o = true) :
    ∃ t, o = .next t := by
  cases o with
  | next t => exact ⟨t, rfl⟩
  | fault _ => cases h
  | refused _ => cases h

/-- Every slot of the fresh Standard instance is off. -/
theorem slots_d2 (a : List SendAnswer) : (readyWith d2 a).slotsCodedOrOff := by
  intro d hd slot hs
  obtain rfl : d2 = d := by simpa [readyWith] using hd
  have h2 : slot < 2 := hs
  right
  unfold Driver.slotOff
  interval_cases slot <;> decide

/-- The slot of the fresh Extended instance is off. -/
theorem slots_e1 (a : List SendAnswer) : (readyWith e1 a).slotsCodedOrOff := by
  intro d hd slot hs
  obtain rfl : e1 = d := by simpa [readyWith] using hd
  have h1 : slot < 1 := hs
  right
  unfold Driver.slotOff
  interval_cases slot
  decide

theorem test_witness_ResetAloneEndsAnInstance :
    (∃ t, step (readyWith d2 []) = .next t)
      ∧ (readyWith d2 []).phase = .ready := ⟨exists_of_goesOn (by decide), by decide⟩

theorem test_witness_DecodeInvertsEncode :
    Instr.wellFormed (.configure 65535 (mkRat 4294967295 65536) .extended) = true
      ∧ Instr.wellFormed (.configure 0 0 .standard) = true
      ∧ Instr.wellFormed (.fill [⟨255, 0, 255⟩] 65535) = true
      ∧ Instr.wellFormed (.showFrame []) = true := by decide

theorem test_witness_LegalPacketIsItsCommandsEncoding :
    (∃ i, decode [0x0101FFFF#32, 0xFFFFFFFF#32] = .ok i)
      ∧ (∃ i, decode [0x0200FFFF#32, 0x00FFFFFF#32] = .ok i)
      ∧ (∃ i, decode [0x03000000#32] = .ok i) := ⟨⟨_, rfl⟩, ⟨_, rfl⟩, ⟨_, rfl⟩⟩

theorem test_witness_IllegalPacketsAreNotExecuted_packet :
    (readyWith d2 []).presentFirst [0x04000000#32] = { readyWith d2 [] with cmdIn := [0x04000000#32] ::
        [] }
      ∧ decode [0x04000000#32] = .error .reservedOpcode := by decide

theorem test_witness_IllegalPacketsAreNotExecuted_phase :
    (readyWith d2 []).phase = .ready
      ∧ (resetWith []).phase = .unconfigured := by decide

theorem test_witness_AssembledLinesDecodeToTheirCommands :
    (∃ p, (AsmLine.configure 65535 (some (mkRat 131071 2)) none).assemble = .ok p)
      ∧ (∃ p, (AsmLine.fill none [(255, 0, 0)]).assemble = .ok p) := ⟨⟨_, rfl⟩, ⟨_, rfl⟩⟩

theorem test_witness_AssembledLinesDecodeToTheirCommands_range :
    (65535 : Nat) < 65536
      ∧ (0 : Rat) ≤ (some (mkRat 131071 2)).getD 1
      ∧ (some (mkRat 131071 2)).getD 1 < (65536 : Rat)
      ∧ (0 : Rat) ≤ (none : Option Rat).getD 1 := by decide

theorem test_witness_StepRunsTheDecodedCommand :
    sShow.cmdIn = [0x03000000#32, 0x00010203#32] :: []
      ∧ decode [0x03000000#32, 0x00010203#32] = .ok (.showFrame [⟨1, 2, 3⟩])
      ∧ decode [] = .error .emptyPacket
      ∧ State.reset.cmdIn = [] := by decide

theorem test_witness_TableWordIsRunByTheNextStep :
    decodeTableWord 64 0x0001000001000002 = some (.configure 2 1 .standard) := by decide

theorem test_witness_EveryPacketIsAnsweredOnce :
    sFill.Inv
      ∧ sFill.cmdIn = [0x02000001#32, 0x00FFFFFF#32] :: []
      ∧ (∃ t, step sFill = .next t)
      ∧ decode [0x02000001#32, 0x00FFFFFF#32] = .ok (.fill [⟨255, 255, 255⟩] 1) :=
  ⟨by decide, by decide, exists_of_goesOn (by decide), by decide⟩

theorem test_witness_EveryRunOfPacketsCompletes :
    sConf.Inv
      ∧ sShow.Inv
      ∧ sFill.Inv
      ∧ sConf.cmdIn ≠ [] := by decide

theorem test_witness_ScaleIsExactFixedPoint :
    (0 : Rat) ≤ 1
      ∧ (0 : Int) ≤ 254
      ∧ (254 : Int) ≤ 255
      ∧ ⌊((255 : Int) : Rat) * 1⌋ ≤ 255 := by
  refine ⟨by norm_num, by norm_num, by norm_num, by norm_num⟩

theorem test_witness_StandardEncodingLaws :
    encStd 0#8 = encStd 0#8
      ∧ 0x11#8 ∈ encStd 0#8
      ∧ 3 < 4 := by decide

theorem test_witness_ExtendedEncodingLaws : 0xDE#8 ∈ encExt 255#8 := by decide

theorem test_witness_StandardDecoderInvertsTheEncoder :
    ∃ b ∈ [0x11#8, 0x12#8, 0x11#8, 0x11#8], b ∉ [0x11#8, 0x13#8, 0x31#8, 0x33#8] := ⟨0x12#8, by decide, by decide⟩

theorem test_witness_ColorIsEncodedGreenRedBlue :
    Cfg.intensity ⟨1, 0, .standard⟩ = 0
      ∧ Cfg.variant ⟨1, 0, .standard⟩ = .standard
      ∧ Cfg.variant ⟨1, 0, .extended⟩ = .extended := by decide

theorem test_witness_EveryOffsetHasOnePlaceInOneSlot :
    2 < 3
      ∧ 4 < bpc .extended
      ∧ 3 < bpc .standard
      ∧ channelOffset .extended 1 2 4 = channelOffset .extended 1 2 4 := by decide

theorem test_witness_FillWritesItsSlotsAndNothingElse :
    (resetWith []).Inv
      ∧ (resetWith []).driver = none
      ∧ d2.cfg.ledCount < 2 + [(⟨1, 2, 3⟩ : Color)].length
      ∧ (readyWith d2 []).Inv
      ∧ (readyWith d2 []).driver = some d2
      ∧ 1 + [(⟨1, 2, 3⟩ : Color)].length ≤ d2.cfg.ledCount
      ∧ [(⟨1, 2, 3⟩ : Color)][0]? = some ⟨1, 2, 3⟩
      ∧ 11 < bpl d2.cfg.variant
      ∧ 11 < slotOffset d2.cfg.variant 1
      ∧ slotOffset d2.cfg.variant 2 ≤ 24 := by decide

theorem test_witness_TooManyColorsOverflow :
    (readyWith d2 []).driver = some d2
      ∧ d2.cfg.ledCount < 2 + [(⟨1, 2, 3⟩ : Color)].length
      ∧ d2.cfg.ledCount < 3 + ([] : List Color).length
      ∧ (readyWith e1 []).driver = some e1
      ∧ e1.cfg.ledCount < [(⟨1, 2, 3⟩ : Color), ⟨4, 5, 6⟩].length := by decide

theorem test_witness_PadIsTheByteLoop :
    d2.wf 65535
      ∧ 2 ≤ d2.cfg.ledCount
      ∧ e1.wf 1
      ∧ 0 ≤ e1.cfg.ledCount
      ∧ slotOffset e1.cfg.variant 0 ≤ 14
      ∧ 14 < e1.cfg.length
      ∧ 11 < slotOffset d2.cfg.variant 1 := by decide

theorem test_witness_FillAndPadWritesTheWholeFrame :
    d2.cfg.ledCount < [(⟨1, 2, 3⟩ : Color), ⟨4, 5, 6⟩, ⟨7, 8, 9⟩].length
      ∧ d2.wf 2
      ∧ (driverWith .standard 1 (frame123 ++ frame123)).wf 2
      ∧ (driverWith .standard 1 (frame123 ++ frame123)).cfg = d2.cfg
      ∧ [(⟨1, 2, 3⟩ : Color), ⟨4, 5, 6⟩].length ≤ d2.cfg.ledCount := by decide

theorem test_witness_ExtendedPadIsNoColor :
    d2.cfg.variant = .standard
      ∧ e1.cfg.variant = .extended := by decide

theorem test_witness_ConfigureConstructsAPaddedInstance :
    (resetWith [.ok, .ok]).phase = .unconfigured
      ∧ (1 : Int) ≤ 1
      ∧ (1 : Int) ≤ (resetWith [.ok, .ok]).maxLeds
      ∧ (65535 : Int) ≤ (resetWith [.ok, .ok]).maxLeds
      ∧ (resetWith [.ok, .ok]).answer 0 = .ok
      ∧ (resetWith [.ok, .ok]).answer 1 = .ok := by decide

theorem test_witness_ConfigureConstructs_sends :
    (resetWith [.ok]).sendsSucceed .standard
      ∧ (resetWith [.ok, .ok]).sendsSucceed .extended := ⟨⟨rfl, by decide⟩, ⟨rfl, fun _ => rfl⟩⟩

theorem test_witness_ConfigureRejectsABadLedCount :
    (resetWith []).phase = .unconfigured
      ∧ (0 : Int) ≤ 0
      ∧ ((resetWith []).maxLeds : Int) < 65536
      ∧ ¬ ((65535 : Int) ≤ 0 ∨ ((resetWith []).maxLeds : Int) < 65535) := by decide

theorem test_witness_ConfigureWithAFailedSendLeavesNoInstance :
    (resetWith [.failed]).phase = .unconfigured
      ∧ (resetWith [.failed]).answer 0 = .failed
      ∧ (resetWith [.ok, .failed]).answer 0 = .ok
      ∧ (resetWith [.ok, .failed]).answer 1 = .failed := by decide

theorem test_witness_ShowSendsExactlyItsFrame :
    (readyWith d2 [.ok]).Inv
      ∧ (readyWith d2 [.ok]).driver = some d2
      ∧ [(⟨1, 2, 3⟩ : Color), ⟨4, 5, 6⟩].length ≤ d2.cfg.ledCount
      ∧ (readyWith d2 [.ok]).sendsSucceed d2.cfg.variant := ⟨by decide, by decide, by decide, ⟨rfl, by decide⟩⟩

theorem test_witness_ShowSendsExactlyItsFrame_extended :
    (readyWith e1 [.ok, .ok]).Inv
      ∧ (readyWith e1 [.ok, .ok]).driver = some e1
      ∧ ([] : List Color).length ≤ e1.cfg.ledCount
      ∧ (readyWith e1 [.ok, .ok]).sendsSucceed e1.cfg.variant := ⟨by decide, by decide, by decide, ⟨rfl, fun _ => rfl⟩⟩

theorem test_witness_ShowWithAFailedSendKeepsTheNewFrame :
    (readyWith e1 [.ok, .failed]).Inv
      ∧ (readyWith e1 [.ok, .failed]).driver = some e1
      ∧ [(⟨1, 2, 3⟩ : Color)].length ≤ e1.cfg.ledCount
      ∧ e1.cfg.variant = .extended
      ∧ (readyWith e1 [.ok, .failed]).answer 0 = .ok
      ∧ (readyWith e1 [.ok, .failed]).answer 1 = .failed
      ∧ (readyWith e1 [.failed]).answer 0 = .failed := by decide

theorem test_witness_ShowPlacesEveryChannelByte :
    (readyWith e1 []).Inv
      ∧ (readyWith e1 []).driver = some e1
      ∧ [(⟨1, 2, 3⟩ : Color)].length ≤ e1.cfg.ledCount
      ∧ [(⟨1, 2, 3⟩ : Color)][0]? = some ⟨1, 2, 3⟩
      ∧ 2 < 3
      ∧ 4 < bpc e1.cfg.variant := by decide

theorem test_witness_ShowForgetsTheOldBuffer :
    (readyWith d2 []).Inv
      ∧ (readyWith d2 []).driver = some d2
      ∧ State.Inv { readyWith d2 [] with driver := some { d2 with tb := (driverWith .standard 1
        (frame123 ++ frame123)).tb } }
      ∧ [(⟨1, 2, 3⟩ : Color)].length ≤ d2.cfg.ledCount := by decide

theorem test_witness_FillNeverReachesTheWire :
    (readyWith d2 [.ok]).Inv
      ∧ (∃ t, exec (.fill [⟨1, 2, 3⟩] 1) (readyWith d2 [.ok]) = .next t)
      ∧ (readyWith d2 [.ok]).driver = some d2
      ∧ ([] : List Color).length ≤ d2.cfg.ledCount :=
  ⟨by decide, exists_of_goesOn (by decide), by decide, by decide⟩

theorem test_witness_RepeatingACommandKeepsTheBuffer :
    (readyWith e1 [.failed, .ok, .ok]).Inv
      ∧ (∃ t, exec (.showFrame [⟨1, 2, 3⟩]) (readyWith e1 [.failed, .ok, .ok]) = .next t
      ∧ ∃ u, exec (.showFrame [⟨1, 2, 3⟩]) t = .next u)
      ∧ (∃ t, exec (.fill [⟨1, 2, 3⟩] 0) (readyWith e1 []) = .next t
      ∧ ∃ u, exec (.fill [⟨1, 2, 3⟩] 0) t = .next u) :=
  ⟨by decide, ⟨_, rfl, exists_of_goesOn (by decide)⟩, ⟨_, rfl, exists_of_goesOn (by decide)⟩⟩

theorem test_witness_SendAppendsOneLogEntry :
    (resetWith [.ok]).answer 0 = .ok
      ∧ (resetWith [.failed]).answer 0 = .failed := by decide

theorem test_witness_NoSendIsRetried :
    (sShow.Inv ∧ ∃ t, step sShow = .next t)
      ∧ (sConf.Inv ∧ ∃ t, step sConf = .next t)
      ∧ (sShowStd.Inv ∧ sShowStd.driver = some d2 ∧ d2.cfg.variant = .standard ∧ ∃ t, step sShowStd =
        .next t) :=
  ⟨⟨by decide, exists_of_goesOn (by decide)⟩, ⟨by decide, exists_of_goesOn (by decide)⟩, by decide, by decide, by decide, exists_of_goesOn (by decide)⟩

theorem test_witness_EveryStepKeepsTheInvariant :
    sFill.Inv
      ∧ (∃ t, step sFill = .next t)
      ∧ sShow.Inv
      ∧ (∃ t, step sShow = .next t) :=
  ⟨by decide, exists_of_goesOn (by decide), by decide, exists_of_goesOn (by decide)⟩

theorem test_witness_EveryStepKeepsSlotsCodedOrOff :
    sFill.Inv
      ∧ sFill.slotsCodedOrOff
      ∧ (∃ t, step sFill = .next t)
      ∧ sShow.slotsCodedOrOff :=
  ⟨by decide, slots_d2 [], exists_of_goesOn (by decide), slots_e1 [.failed]⟩

theorem test_witness_NoStepFaultsOrIsRefused :
    sConf.Inv
      ∧ sShow.Inv
      ∧ (readyWith d2 []).Inv := by decide

theorem test_witness_ConfigurationIsFixedForLife :
    (∃ t, step sShow = .next t ∧ sShow.driver = some e1)
      ∧ (∃ t, step sConf = .next t
      ∧ sConf.driver = none
      ∧ t.driver = some (freshDriver 1 .standard 1)) := ⟨⟨_, rfl, by decide⟩, ⟨_, rfl, by decide, by decide⟩⟩

theorem test_witness_ErrorsBeforeSendingChangeNothing :
    ErrorKind.overflowError ≠ .transportError
      ∧ ∃ t, exec (.fill [] 3) (readyWith d2 []) = .next t
      ∧ t.responses = (readyWith d2 []).responses ++ [errorResponse .overflowError] := ⟨by decide, _, rfl, by decide⟩

theorem test_witness_OnlyProtocolBytesInTheBuffer :
    (readyWith d2 []).Inv
      ∧ (readyWith d2 []).slotsCodedOrOff
      ∧ (readyWith d2 []).driver = some d2
      ∧ (readyWith d2 []).peek 23 = some 0x11#8
      ∧ d2.cfg.variant = .standard := ⟨by decide, slots_d2 [], by decide, by decide, by decide⟩

theorem test_witness_OnlyProtocolBytesInTheBuffer_extended :
    (readyWith e1 []).Inv
      ∧ (readyWith e1 []).slotsCodedOrOff
      ∧ (readyWith e1 []).driver = some e1
      ∧ (readyWith e1 []).peek 14 = some 0x00#8
      ∧ e1.cfg.variant = .extended := ⟨by decide, slots_e1 [], by decide, by decide, by decide⟩

theorem test_witness_WireContentsOfALog :
    ∀ e ∈ [TxEvent.sent (std 2), .sent (zeros 3)], ∃ bs, e = .sent bs := by
  intro e he
  simp only [List.mem_cons, List.not_mem_nil, or_false] at he
  rcases he with rfl | rfl <;> exact ⟨_, rfl⟩

end Sys2Proof.Tests
end

section
/-! SUPPORT. The proofs about the state (spec 10_state): what a step can be, what it can do to the
driver, and from these the invariants, the fixed configuration, CONFIGURE's result and SHOW's frame. -/

namespace Sys2Proof.Machine

/-! ## What a step can be -/

/-- All that a step which answers a next state can be: idle, a packet rejected, or a command run. -/
theorem step_cases {s t : State} (h : step s = .next t) :
    t = s
      ∨ ∃ p rest, s.cmdIn = p :: rest
          ∧ (t = State.raise { s with cmdIn := rest } .illegalCommand
            ∨ ∃ i, decode p = .ok i ∧ exec i { s with cmdIn := rest } = .next t) := by
  unfold step State.takePacket at h
  cases hc : s.cmdIn with
  | nil =>
    simp only [hc, State.idle, Host.Outcome.next.injEq] at h
    exact .inl h.symm
  | cons p rest =>
    simp only [hc] at h
    refine .inr ⟨p, rest, rfl, ?_⟩
    cases hd : decode p with
    | error e =>
      simp only [hd, State.rejectPacket_eq, Host.Outcome.next.injEq] at h
      exact .inl h.symm
    | ok i =>
      simp only [hd] at h
      exact .inr ⟨i, rfl, h⟩

/-! ## The commands in the wrong phase, and CONFIGURE in the right one -/

theorem exec_configure (n : Int) (q : Rat) (v : Variant) (s : State) :
    exec (.configure n q v) s = execConfigure n q v s := rfl

theorem exec_fill (cs : List Color) (k : Nat) (s : State) : exec (.fill cs k) s = execFill cs k s := rfl

theorem exec_showFrame (cs : List Color) (s : State) : exec (.showFrame cs) s = execShowFrame cs s := rfl

theorem execFill_none {s : State} (cs : List Color) (k : Nat) (h : s.driver = none) :
    execFill cs k s = .next (s.raise .illegalCommand) := by
  simp only [execFill, h]

theorem execShowFrame_none {s : State} (cs : List Color) (h : s.driver = none) :
    execShowFrame cs s = .next (s.raise .illegalCommand) := by
  simp only [execShowFrame, h]

theorem execConfigure_some {s : State} {d : Driver} (n : Int) (q : Rat) (v : Variant)
    (h : s.driver = some d) : execConfigure n q v s = .next (s.raise .illegalCommand) := by
  simp only [execConfigure, h]

/-- CONFIGURE of any state keeps `MAXLEDS`, and the driver too unless it makes the first one, with a
legal LED count and the frame of no colours in its buffer. -/
theorem execConfigure_cases {s t : State} {n : Int} {q : Rat} {v : Variant}
    (h : execConfigure n q v s = .next t) :
    t.maxLeds = s.maxLeds
      ∧ (t.driver = s.driver
        ∨ s.driver = none ∧ 0 < n ∧ n ≤ s.maxLeds
          ∧ t.driver = some ((Driver.allocate n.toNat q v).framed [])) := by
  cases hd : s.driver with
  | some d =>
    rw [execConfigure_some n q v hd, Host.Outcome.next.injEq] at h
    subst h
    exact ⟨rfl, .inl hd⟩
  | none =>
    rw [execConfigure_eq s n q v hd, Host.Outcome.next.injEq] at h
    subst h
    split
    · exact ⟨rfl, .inl hd⟩
    · rename_i hn
      obtain ⟨hdrv, -, hmax, -, -⟩ := s.commission_frame ((Driver.allocate n.toNat q v).framed [])
        (frameBuffers v (frameOf { ledCount := n.toNat, intensity := q, variant := v } []))
      refine ⟨hmax, ?_⟩
      rcases hdrv with hnew | hold
      · exact .inr ⟨rfl, by omega, by omega, hnew⟩
      · exact .inl (hold.trans hd)

/-! ## The configuration is fixed (10 R21, R22, R28) -/

/-- What a driver keeps for life: `CFG`, the ResetBuffer and the buffer's size. -/
def Driver.SameConfiguration (d' d : Driver) : Prop :=
  d'.cfg = d.cfg ∧ d'.rb = d.rb ∧ d'.tb.size = d.tb.size

theorem fillLoop_size {cfg : Cfg} {cs : List Color} {off off' : Nat} {m m' : Memory}
    (h : fillLoop cfg off cs m = .ok (m', off')) : m'.size = m.size := by
  induction cs generalizing off m with
  | nil =>
    simp only [fillLoop, Except.ok.injEq, Prod.mk.injEq] at h
    rw [h.1]
  | cons c cs ih =>
    rw [fillLoop] at h
    split at h
    · cases h
    · rename_i m₁ hw
      rw [ih h, ((Memory.write_ok_iff ..).mp hw).2, Memory.overwrite_size]

theorem Driver.fill_sameConfiguration {d d' : Driver} {cs : List Color} {k k' : Nat}
    (h : d.fill cs k = .ok (d', k')) : d'.SameConfiguration d := by
  unfold Driver.fill at h
  split at h
  · cases h
  · split at h
    · cases h
    · rename_i tb off hloop
      simp only [Except.ok.injEq, Prod.mk.injEq] at h
      obtain ⟨rfl, -⟩ := h
      exact ⟨rfl, rfl, fillLoop_size hloop⟩

/-- What a command can do to the driver, in every state: nothing, a new buffer content, or the making
of the first driver, by a CONFIGURE with these operands. -/
inductive ConfigEffect (i : Instr) : Option Driver → Option Driver → Prop
  | kept (o : Option Driver) : ConfigEffect i o o
  | rewritten {d d' : Driver} (h : d'.SameConfiguration d) : ConfigEffect i (some d) (some d')
  | created {n : Int} {q : Rat} {v : Variant} (hi : i = .configure n q v) (hn : 0 < n) :
      ConfigEffect i none (some ((Driver.allocate n.toNat q v).framed []))

/-- A driver never ends and keeps its configuration. -/
theorem ConfigEffect.of_some {i : Instr} {d : Driver} {new : Option Driver}
    (h : ConfigEffect i (some d) new) : ∃ d', new = some d' ∧ d'.SameConfiguration d := by
  cases h with
  | kept => exact ⟨d, rfl, rfl, rfl, rfl⟩
  | rewritten hsame => exact ⟨_, rfl, hsame⟩

/-- A driver appears by a CONFIGURE alone, with its operands. -/
theorem ConfigEffect.of_none {i : Instr} {d : Driver} (h : ConfigEffect i none (some d)) :
    ∃ n q v, i = .configure n q v ∧ (d.cfg.ledCount : Int) = n ∧ d.cfg.intensity = q
      ∧ d.cfg.variant = v := by
  cases h with
  | created hi hn => exact ⟨_, _, _, hi, Int.toNat_of_nonneg hn.le, rfl, rfl⟩

theorem exec_configEffect {i : Instr} {s t : State} (h : exec i s = .next t) :
    t.maxLeds = s.maxLeds ∧ ConfigEffect i s.driver t.driver := by
  cases i with
  | configure n q v =>
    obtain ⟨hmax, hold | ⟨hnone, hpos, -, hnew⟩⟩ := execConfigure_cases h
    · exact ⟨hmax, hold ▸ .kept _⟩
    · rw [hnone, hnew]
      exact ⟨hmax, .created rfl hpos⟩
  | fill cs k =>
    rw [exec_fill] at h
    cases hd : s.driver with
    | none =>
      rw [execFill_none cs k hd, Host.Outcome.next.injEq] at h
      subst h
      exact ⟨rfl, hd ▸ .kept _⟩
    | some d =>
      simp only [execFill, hd] at h
      split at h <;> cases h
      · exact ⟨rfl, hd ▸ .kept _⟩
      · rename_i hfill
        exact ⟨rfl, .rewritten (Driver.fill_sameConfiguration hfill)⟩
  | showFrame cs =>
    rw [exec_showFrame] at h
    cases hd : s.driver with
    | none =>
      rw [execShowFrame_none cs hd, Host.Outcome.next.injEq] at h
      subst h
      exact ⟨rfl, hd ▸ .kept _⟩
    | some d =>
      simp only [execShowFrame, hd] at h
      split at h
      · cases h
        exact ⟨rfl, hd ▸ .kept _⟩
      · split at h <;> cases h
        · exact ⟨rfl, hd ▸ .kept _⟩
        · rename_i d' bufs hframe
          obtain ⟨hnew, -, hmax, -, -⟩ := s.transmit_frame d' bufs
          rw [hnew]
          exact ⟨hmax, .rewritten (Driver.frame_cfg hframe)⟩

/-- All that a step of any state can do to `MAXLEDS` and the driver. -/
theorem step_configEffect {s t : State} (h : step s = .next t) :
    t.maxLeds = s.maxLeds
      ∧ (t.driver = s.driver
        ∨ ∃ p rest i, s.cmdIn = p :: rest ∧ decode p = .ok i ∧ ConfigEffect i s.driver t.driver) := by
  obtain rfl | ⟨p, rest, hcmd, rfl | ⟨i, hdec, hexec⟩⟩ := step_cases h
  · exact ⟨rfl, .inl rfl⟩
  · exact ⟨rfl, .inl rfl⟩
  · obtain ⟨hmax, heffect⟩ := exec_configEffect hexec
    exact ⟨hmax, .inr ⟨p, rest, i, hcmd, hdec, heffect⟩⟩

/-! ## What a step does to a well-formed driver -/

/-- What a step can do to the driver of a state that meets the invariant: nothing, the write of a FILL
that fits, the frame of a SHOW that fits, or the driver of a legal CONFIGURE. -/
inductive DriverEffect (maxLeds : Nat) : Option Driver → Option Driver → Prop
  | kept (o : Option Driver) : DriverEffect maxLeds o o
  | filled (d : Driver) (cs : List Color) (k : Nat) (h : k + cs.length ≤ d.cfg.ledCount) :
      DriverEffect maxLeds (some d) (some (d.filled cs k))
  | framed (d : Driver) (cs : List Color) (h : cs.length ≤ d.cfg.ledCount) :
      DriverEffect maxLeds (some d) (some (d.framed cs))
  | created (n : Nat) (q : Rat) (v : Variant) (hpos : 1 ≤ n) (hmax : n ≤ maxLeds) :
      DriverEffect maxLeds none (some ((Driver.allocate n q v).framed []))

theorem exec_driverEffect {i : Instr} {s t : State} (hi : s.Inv) (h : exec i s = .next t) :
    DriverEffect s.maxLeds s.driver t.driver := by
  cases i with
  | configure n q v =>
    obtain ⟨-, hold | ⟨hnone, hpos, hle, hnew⟩⟩ := execConfigure_cases h
    · exact hold ▸ .kept _
    · rw [hnone, hnew]
      exact .created _ q v (by omega) (by omega)
  | fill cs k =>
    rw [exec_fill] at h
    cases hd : s.driver with
    | none =>
      rw [execFill_none cs k hd, Host.Outcome.next.injEq] at h
      subst h
      exact hd ▸ .kept _
    | some d =>
      rw [execFill_eq s d cs k hi hd, Host.Outcome.next.injEq] at h
      subst h
      split
      · exact hd ▸ .kept _
      · exact .filled d cs k (by omega)
  | showFrame cs =>
    rw [exec_showFrame] at h
    cases hd : s.driver with
    | none =>
      rw [execShowFrame_none cs hd, Host.Outcome.next.injEq] at h
      subst h
      exact hd ▸ .kept _
    | some d =>
      rw [execShowFrame_eq s d cs hi hd, Host.Outcome.next.injEq] at h
      subst h
      split
      · exact hd ▸ .kept _
      · rw [(s.transmit_frame _ _).1]
        exact .framed d cs (by omega)

/-- All that a step can do to `MAXLEDS` and the driver of a state that meets the invariant. -/
theorem step_driverEffect {s t : State} (hi : s.Inv) (h : step s = .next t) :
    t.maxLeds = s.maxLeds ∧ DriverEffect s.maxLeds s.driver t.driver := by
  obtain rfl | ⟨p, rest, -, rfl | ⟨i, -, hexec⟩⟩ := step_cases h
  · exact ⟨rfl, .kept _⟩
  · exact ⟨rfl, .kept _⟩
  · have hmax := (exec_configEffect hexec).1
    exact ⟨hmax, exec_driverEffect (s := { s with cmdIn := rest }) hi hexec⟩

/-- Every effect of a step keeps a well-formed driver well-formed, and makes only such ones. -/
theorem DriverEffect.wf {n : Nat} {old new : Option Driver} (h : DriverEffect n old new)
    (hold : ∀ d ∈ old, d.wf n) : ∀ d ∈ new, d.wf n := by
  cases h with
  | kept => exact hold
  | filled d cs k hfit => simpa using Driver.filled_wf cs k (hold d rfl) hfit
  | framed d cs hfit => simpa using Driver.framed_wf cs (hold d rfl) hfit
  | created m q v hpos hmax =>
    simpa using Driver.framed_wf [] (Driver.allocate_wf q v hpos hmax) (Nat.zero_le _)

/-! ## The slots after a write -/

/-- Bytes read after a write that gave each of them. -/
theorem bytesFrom_overwrite_of_written {m : Memory} {addr a : Nat} {bs xs : List Byte} (ha : addr ≤ a)
    (h : ∀ j < xs.length, bs[a - addr + j]? = xs[j]?) :
    bytesFrom (m.overwrite addr bs).cells a xs.length = xs := by
  apply List.ext_getElem?
  intro j
  rw [getElem?_bytesFrom]
  split
  · rename_i hj
    have hbs : bs[a + j - addr]? = some xs[j] := by
      rw [Nat.sub_add_comm ha, h j hj, List.getElem?_eq_getElem hj]
    have hlt : a + j - addr < bs.length := (List.getElem?_eq_some_iff.mp hbs).1
    rw [Memory.overwrite_lookup, if_pos (by omega), List.getD_eq_getElem?_getD, hbs,
      List.getElem?_eq_getElem hj]
    rfl
  · rename_i hj
    exact (List.getElem?_eq_none (by omega)).symm

/-- Bytes read after a write elsewhere are as they were. -/
theorem bytesFrom_overwrite_of_disjoint (m : Memory) {addr a n : Nat} {bs : List Byte}
    (h : a + n ≤ addr ∨ addr + bs.length ≤ a) :
    bytesFrom (m.overwrite addr bs).cells a n = bytesFrom m.cells a n :=
  bytesFrom_congr fun k hk => by rw [Memory.overwrite_lookup, if_neg (by omega)]

/-- The slots FILL names hold its colours. -/
theorem Driver.filled_slotBytes (d : Driver) (cs : List Color) (k i : Nat) (c : Color)
    (hc : cs[i]? = some c) : (d.filled cs k).slotBytes (k + i) = encColor d.cfg c := by
  have hlen := length_encColor d.cfg c
  have hoff : (k + i) * bpl d.cfg.variant - k * bpl d.cfg.variant = i * bpl d.cfg.variant := by
    rw [Nat.add_mul]
    omega
  simp only [Driver.slotBytes, Driver.filled, slotOffset]
  rw [← hlen]
  refine bytesFrom_overwrite_of_written (by rw [hlen]; gcongr; omega) fun j hj => ?_
  rw [hlen, hoff]
  exact getElem?_encColors d.cfg cs i j c hc (hlen ▸ hj)

/-- The other slots are as they were. -/
theorem Driver.filled_slotBytes_other (d : Driver) (cs : List Color) (k slot : Nat)
    (h : slot < k ∨ k + cs.length ≤ slot) : (d.filled cs k).slotBytes slot = d.slotBytes slot := by
  refine bytesFrom_overwrite_of_disjoint _ ?_
  rw [length_encColors]
  simp only [slotOffset, ← Nat.add_mul, Driver.filled, ← Nat.succ_mul]
  rcases h with h | h
  · exact .inl (Nat.mul_le_mul_right _ h)
  · exact .inr (Nat.mul_le_mul_right _ h)

/-- A frame's first slots hold its colours. -/
theorem Driver.framed_slotBytes (d : Driver) (cs : List Color) (i : Nat) (c : Color)
    (hc : cs[i]? = some c) : (d.framed cs).slotBytes i = encColor d.cfg c := by
  have hlen := length_encColor d.cfg c
  have hi : i + 1 ≤ cs.length := (List.getElem?_eq_some_iff.mp hc).1
  have hle := Nat.mul_le_mul_right (bpl d.cfg.variant) hi
  rw [Nat.succ_mul] at hle
  simp only [Driver.slotBytes, Driver.framed, slotOffset, frameOf]
  rw [← hlen]
  refine bytesFrom_overwrite_of_written (Nat.zero_le _) fun j hj => ?_
  rw [hlen, Nat.sub_zero, List.getElem?_append_left (by rw [length_encColors]; omega)]
  exact getElem?_encColors d.cfg cs i j c hc (hlen ▸ hj)

/-- A frame's other slots are padded. -/
theorem Driver.framed_slotBytes_pad (d : Driver) (cs : List Color) (slot : Nat)
    (hslot : slot < d.cfg.ledCount) (h : cs.length ≤ slot) : (d.framed cs).slotOff slot := by
  have hlow := Nat.mul_le_mul_right (bpl d.cfg.variant) h
  have hhigh := Nat.mul_le_mul_right (bpl d.cfg.variant) (Nat.succ_le_of_lt hslot)
  rw [Nat.succ_mul] at hhigh
  have hread := bytesFrom_overwrite_of_written (m := d.tb) (addr := 0) (bs := frameOf d.cfg cs)
    (a := slot * bpl d.cfg.variant)
    (xs := List.replicate (bpl d.cfg.variant) (offByte d.cfg.variant)) (Nat.zero_le _) fun j hj => by
      rw [List.length_replicate] at hj
      rw [frameOf, List.getElem?_append_right (by rw [length_encColors]; omega), length_encColors,
        List.getElem?_replicate, List.getElem?_replicate, Nat.sub_mul, if_pos (by omega), if_pos hj]
  rwa [List.length_replicate] at hread

/-- Every slot of the driver is coded or off (10 R32). -/
def Driver.SlotsCodedOrOff (d : Driver) : Prop :=
  ∀ slot < d.cfg.ledCount, d.slotCoded slot ∨ d.slotOff slot

/-- FILL writes colours to its slots and keeps the others. -/
theorem Driver.filled_slotsCodedOrOff {d : Driver} (cs : List Color) (k : Nat)
    (hd : d.SlotsCodedOrOff) : (d.filled cs k).SlotsCodedOrOff := by
  intro slot hslot
  by_cases hin : k ≤ slot ∧ slot < k + cs.length
  · obtain ⟨i, rfl⟩ := Nat.exists_eq_add_of_le hin.1
    have hi : i < cs.length := by omega
    exact .inl ⟨cs[i], d.filled_slotBytes cs k i _ (List.getElem?_eq_getElem hi)⟩
  · have hkeep := d.filled_slotBytes_other cs k slot (by omega)
    rw [Driver.slotCoded, Driver.slotOff, hkeep]
    exact hd slot hslot

/-- A frame is colours and then pad, whatever the buffer held. -/
theorem Driver.framed_slotsCodedOrOff (d : Driver) (cs : List Color) : (d.framed cs).SlotsCodedOrOff := by
  intro slot hslot
  by_cases hin : slot < cs.length
  · exact .inl ⟨cs[slot], d.framed_slotBytes cs slot _ (List.getElem?_eq_getElem hin)⟩
  · exact .inr (d.framed_slotBytes_pad cs slot hslot (by omega))

/-- Every effect of a step keeps every slot coded or off. -/
theorem DriverEffect.slotsCodedOrOff {n : Nat} {old new : Option Driver} (h : DriverEffect n old new)
    (hold : ∀ d ∈ old, d.SlotsCodedOrOff) : ∀ d ∈ new, d.SlotsCodedOrOff := by
  cases h with
  | kept => exact hold
  | filled d cs k => simpa using Driver.filled_slotsCodedOrOff cs k (hold d rfl)
  | framed d cs => simpa using d.framed_slotsCodedOrOff cs
  | created m q v => simpa using (Driver.allocate m q v).framed_slotsCodedOrOff []

/-! ## The sends of a frame that all succeed -/

theorem State.sentAll_frame (s : State) (v : Variant) (frame : List Byte) :
    (s.sentAll v frame).driver = s.driver ∧ (s.sentAll v frame).responses = s.responses
      ∧ (s.sentAll v frame).cmdIn = s.cmdIn ∧ (s.sentAll v frame).maxLeds = s.maxLeds := by
  cases v <;> exact ⟨rfl, rfl, rfl, rfl⟩

theorem State.sentAll_txlog {s : State} {v : Variant} (frame : List Byte) (h : s.sendsSucceed v) :
    (s.sentAll v frame).txlog = s.txlog ++ sentFrame v frame := by
  obtain ⟨h0, h1⟩ := h
  cases v with
  | standard => simp [State.sentAll, sentFrame, h0, txEvent]
  | extended => simp [State.sentAll, sentFrame, State.answer_logSend, h0, h1 rfl, txEvent]

/-- The frame of a variant takes as many answers as it makes sends. -/
theorem State.sentAll_leftAfterSends (s : State) (v : Variant) (frame : List Byte) :
    (s.sentAll v frame).leftAfterSends s (sentFrame v []).length := by
  cases v <;> simp [State.sentAll, State.leftAfterSends, sentFrame, ← List.drop_one]

/-- The bytes of a variant's ResetBuffer (10 R28). -/
theorem resetBufferOf_bytes (v : Variant) :
    (resetBufferOf v).map Memory.bytes
      = match v with
        | .standard => none
        | .extended => some (List.replicate 150 0x00#8) := by
  cases v with
  | standard => rfl
  | extended => simp [resetBufferOf, Memory.bytes, Memory.zeroed, bytesFrom_nil, resetLen]

/-- A new driver's buffer is all pad. -/
theorem Driver.allocate_framed_bytes (n : Nat) (q : Rat) (v : Variant) :
    ((Driver.allocate n q v).framed []).tb.bytes = List.replicate (n * bpl v) (offByte v) :=
  Driver.framed_bytes _ [] rfl (Nat.zero_le _)

/-! ## The first byte of an Extended encoding -/

/-- Both symbols start with a 1 (30 R63). -/
theorem symbol_msb (bit : Bool) : (symbol bit).msb = true := by cases bit <;> rfl

/-- A symbol stream starts with its first symbol. The width is written as the sum of the symbols' widths
so that `BitVec.msb_append` applies. -/
theorem symbolStream_msb (b : Byte) : (symbolStream b).msb = true := by
  unfold symbolStream
  change BitVec.msb (n := 5 + 5 + 5 + 5 + 5 + 5 + 5 + 5) _ = true
  simp only [BitVec.msb_append, symbol_msb]
  rfl

/-- An Extended channel starts with a byte that is not OFF (30 R65). -/
theorem head?_encExt_ne_zero (b : Byte) : (encExt b).head? ≠ some 0#8 := by
  intro h
  have hfirst : (symbolStream b).extractLsb' 32 8 = 0#8 := Option.some.inj h
  have hmsb : (symbolStream b).msb = false := by
    simpa [BitVec.msb_eq_getLsbD_last] using congrArg BitVec.msb hfirst
  exact Bool.noConfusion ((symbolStream_msb b).symm.trans hmsb)

/-- An intensity scales channel 0 to 0 (40 R91). -/
theorem scale_zero (q : Rat) : scale 0 q = 0#8 := by
  simp [scale, floorProduct]

/-! ## Settled -/

/-- Settles O38: each effect a step can have on the driver keeps it well-formed. -/
theorem everyStepKeepsTheInvariant : Obligations.EveryStepKeepsTheInvariant := by
  intro s t hs h
  obtain ⟨hmax, heffect⟩ := step_driverEffect hs h
  obtain ⟨hlow, hhigh, hwf⟩ := hs
  rw [State.Inv, hmax]
  exact ⟨hlow, hhigh, heffect.wf hwf⟩

/-- Settles O39: each effect a step can have on the driver keeps its slots coded or off. -/
theorem everyStepKeepsSlotsCodedOrOff : Obligations.EveryStepKeepsSlotsCodedOrOff := fun _ _ hs hslots h =>
  (step_driverEffect hs h).2.slotsCodedOrOff hslots

/-- Settles O26: the Standard bytes of (0,0,0) are the pad byte; an Extended colour starts with a byte
that is not. -/
theorem extendedPadIsNoColor : Obligations.ExtendedPadIsNoColor := by
  refine ⟨fun cfg hv => ?_, fun cfg c hv heq => ?_⟩
  · rw [encColor, scale_zero, hv]
    decide
  · have hhead := congrArg List.head? heq
    rw [encColor, hv] at hhead
    exact head?_encExt_ne_zero (scale c.g cfg.intensity) hhead.symm

/-- Settles O27, from what CONFIGURE does without a driver when all its sends succeed. -/
theorem configureConstructsAPaddedInstance : Obligations.ConfigureConstructsAPaddedInstance := by
  intro s n q v hphase hpos hle hsends
  have hnone := s.phase_unconfigured_iff.mp hphase
  have hframe : frameOf { ledCount := n.toNat, intensity := q, variant := v } []
      = List.replicate (n.toNat * bpl v) (offByte v) := rfl
  have hexec := execConfigure_eq s n q v hnone
  rw [if_neg (by omega), State.commission_ok s _ v _ hsends, hframe] at hexec
  obtain ⟨-, hresp, hcmd, hmax⟩ := s.sentAll_frame v (List.replicate (n.toNat * bpl v) (offByte v))
  refine ⟨_, _, hexec, rfl, Int.toNat_of_nonneg (by omega), rfl, rfl,
    Driver.allocate_framed_bytes n.toNat q v, resetBufferOf_bytes v, State.sentAll_txlog _ hsends, ?_,
    hcmd, hmax, s.sentAll_leftAfterSends v _⟩
  rw [State.respond_responses, hresp]
  rfl

/-- Settles O33: the frame is written over the whole buffer, so the two drivers are one after it. -/
theorem showForgetsTheOldBuffer : Obligations.ShowForgetsTheOldBuffer := by
  intro s d tb cs hs hd hs' hfit
  obtain ⟨-, -, hsize, hwf, -⟩ := hs.2.2 d hd
  obtain ⟨-, -, hsize', hwf', -⟩ := hs'.2.2 { d with tb := tb } rfl
  have hframed : Driver.framed { d with tb := tb } cs = d.framed cs := by
    have hsame := Memory.overwrite_all_eq hwf' hwf (hsize'.trans hsize.symm)
      ((length_frameOf d.cfg cs hfit).trans hsize'.symm)
    simp only [Driver.framed, hsame]
  rw [exec_showFrame, exec_showFrame, execShowFrame_eq s d cs hs hd, execShowFrame_eq _ _ cs hs' rfl, hframed,
    if_neg (by simpa using hfit), if_neg (by omega)]
  rfl

/-- Settles O41, from what each command can do to the driver in any state. -/
theorem configurationIsFixedForLife : Obligations.ConfigurationIsFixedForLife := by
  intro s t h
  obtain ⟨hmax, hkept | ⟨p, rest, i, hcmd, hdec, heffect⟩⟩ := step_configEffect h
  · rw [hkept]
    exact ⟨hmax, fun d hd => ⟨d, hd, rfl, rfl, rfl⟩, fun d hnone hd => by simp [hnone] at hd⟩
  · refine ⟨hmax, fun d hd => ?_, fun d hnone hd => ?_⟩
    · exact ConfigEffect.of_some (hd ▸ heffect)
    · obtain ⟨n, q, v, rfl, hops⟩ := ConfigEffect.of_none (hnone ▸ hd ▸ heffect)
      exact ⟨p, rest, n, q, v, hcmd, hdec, hops⟩

/-- Settles O2: there is no driver at reset. -/
theorem resetMeetsTheInvariants : Obligations.ResetMeetsTheInvariants := by
  have hnone : ∀ d, d ∉ State.reset.driver := fun d hd => by cases hd
  exact ⟨⟨by decide, by decide, fun d hd => absurd hd (hnone d)⟩, fun d hd => absurd hd (hnone d)⟩

end Sys2Proof.Machine
end

section
/-! SUPPORT. The proofs about the memory and the wire (spec 20_memory): where a byte of the buffer
belongs, what a colour and a log put on the wire, what the second of two equal commands writes, and what
a command has answered and offered to the transport when it ends. -/

namespace Sys2Proof.Machine

/-! ## What a frame's sends leave in the log -/

/-- The entries the sends of one frame of a variant add to `TXLOG`, and how the sending ends: a failed
send is the last one made (42 R128, R137). -/
inductive FrameLog (frame : List Byte) : Variant → SendAnswer → List TxEvent → Prop
  | frameFailed (v : Variant) : FrameLog frame v .failed [.failed frame]
  | frameSent : FrameLog frame .standard .ok [.sent frame]
  | resetOffered (a : SendAnswer) : FrameLog frame .extended a [.sent frame, txEvent a resetBytes]

section
variable {frame : List Byte} {v : Variant} {a : SendAnswer} {new : List TxEvent}

theorem FrameLog.length_le_two (h : FrameLog frame v a new) : new.length ≤ 2 := by
  cases h <;> simp

theorem FrameLog.length_le_one (h : FrameLog frame v a new) (hv : v = .standard) : new.length ≤ 1 := by
  subst hv
  cases h <;> simp

/-- No send follows a failed one. -/
theorem FrameLog.sent_of_mem_dropLast (h : FrameLog frame v a new) : ∀ e ∈ new.dropLast, ∃ bs, e = .sent bs := by
  cases h <;> simp

theorem FrameLog.bytes_of_first {e : TxEvent} (h : FrameLog frame v a new) (he : new[0]? = some e) :
    e.bytes = frame := by
  cases h <;> cases he <;> rfl

theorem FrameLog.bytes_of_second {e : TxEvent} (h : FrameLog frame v a new) (he : new[1]? = some e) :
    e.bytes = resetBytes := by
  cases h with
  | frameFailed => cases he
  | frameSent => cases he
  | resetOffered a =>
    cases he
    cases a <;> rfl

theorem FrameLog.failed_mem_iff (h : FrameLog frame v a new) : (∃ bs, .failed bs ∈ new) ↔ a = .failed := by
  cases h with
  | frameFailed => simp
  | frameSent => simp
  | resetOffered a => cases a <;> simp [txEvent]

end

/-- The sends of a frame make a `FrameLog`, counted one by one. -/
theorem sendAll_frameLog (s : State) (v : Variant) (frame : List Byte) :
    ∃ new, FrameLog frame v (sendAll (frameBuffers v frame) s).2 new
      ∧ (sendAll (frameBuffers v frame) s).1.txlog = s.txlog ++ new
      ∧ (sendAll (frameBuffers v frame) s).1.sends = s.sends + new.length := by
  cases v with
  | standard =>
    rw [frameBuffers, sendAll_one]
    refine ⟨_, ?_, rfl, rfl⟩
    cases s.answer 0 with
    | ok => exact .frameSent
    | failed => exact .frameFailed _
  | extended =>
    rw [frameBuffers, sendAll_two]
    cases h : s.answer 0 with
    | ok =>
      refine ⟨_, .resetOffered _, ?_, rfl⟩
      simp [State.answer_logSend, h, txEvent]
    | failed => exact ⟨_, .frameFailed _, by simp [h, txEvent], rfl⟩

/-! ## Response words -/

theorem responseWord_status (status : BitVec 8) (value : BitVec 16) :
    (responseWord status value).extractLsb' 24 8 = status :=
  (field_of_high (status ++ 0#8) value 24 8 (by decide)).trans
    ((field_of_high status 0#8 8 8 (by decide)).trans BitVec.extractLsb'_eq_self)

theorem responseWord_ne {status status' : BitVec 8} (value value' : BitVec 16) (h : status ≠ status') :
    responseWord status value ≠ responseWord status' value' := fun heq =>
  h (by simpa [responseWord_status] using congrArg (BitVec.extractLsb' 24 8) heq)

/-- The response to a command whose frame was sent, or failed to be (42 R128, 60 R148). -/
def frameResponse : SendAnswer → Word
  | .ok => okResponse 0
  | .failed => errorResponse .transportError

theorem frameResponse_eq_transportError_iff (a : SendAnswer) :
    frameResponse a = errorResponse .transportError ↔ a = .failed := by
  cases a <;> decide

/-! ## What a command has exchanged with the outside when it ends -/

/-- From `s` to `t` no packet was taken, the one response `w` was delivered and the sends `new` were made. -/
structure Exchange (s t : State) (w : Word) (new : List TxEvent) : Prop where
  cmdIn : t.cmdIn = s.cmdIn
  responses : t.responses = s.responses ++ [w]
  txlog : t.txlog = s.txlog ++ new
  sends : t.sends = s.sends + new.length

/-- A response delivered, and a driver set or not, with nothing sent. -/
theorem Exchange.of_respond (s : State) (o : Option Driver) (w : Word) :
    Exchange s (State.respond { s with driver := o } w) w [] :=
  ⟨rfl, rfl, (List.append_nil _).symm, rfl⟩

theorem Exchange.responses_eq_iff {s t : State} {w : Word} {new : List TxEvent} (h : Exchange s t w new)
    (w' : Word) : t.responses = s.responses ++ [w'] ↔ w = w' := by
  simp [h.responses]

theorem Exchange.of_raise (s : State) (e : ErrorKind) : Exchange s (s.raise e) (errorResponse e) [] :=
  .of_respond s s.driver _

/-- CONFIGURE's sends, with the response they lead to. -/
theorem State.commission_exchange (s : State) (d : Driver) (v : Variant) (frame : List Byte) :
    ∃ a new, FrameLog frame v a new
      ∧ Exchange s (s.commission d (frameBuffers v frame)) (frameResponse a) new := by
  obtain ⟨new, hlog, htx, hsends⟩ := sendAll_frameLog s v frame
  obtain ⟨-, hresp, hcmd, -, -⟩ := sendAll_frame (frameBuffers v frame) s
  refine ⟨_, new, hlog, ?_⟩
  unfold State.commission
  split <;> rename_i s' heq <;> rw [heq] at htx hsends hresp hcmd ⊢ <;>
    exact ⟨hcmd, congrArg (· ++ [_]) hresp, htx, hsends⟩

/-- SHOW's sends, with the response they lead to. -/
theorem State.transmit_exchange (s : State) (d : Driver) (v : Variant) (frame : List Byte) :
    ∃ a new, FrameLog frame v a new
      ∧ Exchange s (s.transmit d (frameBuffers v frame)) (frameResponse a) new := by
  obtain ⟨new, hlog, htx, hsends⟩ := sendAll_frameLog { s with driver := some d } v frame
  obtain ⟨-, hresp, hcmd, -, -⟩ := sendAll_frame (frameBuffers v frame) { s with driver := some d }
  refine ⟨_, new, hlog, ?_⟩
  unfold State.transmit
  split <;> rename_i s' heq <;> rw [heq] at htx hsends hresp hcmd ⊢ <;>
    exact ⟨hcmd, congrArg (· ++ [_]) hresp, htx, hsends⟩

/-- The commands that send, from the driver before and after: the variant, which says how many sends
there are, and the frame. SHOW sends the buffer it leaves (42 R128); CONFIGURE, which makes the driver,
sends all OFF (42 R126). -/
inductive FrameSource (old new : Option Driver) : Instr → Variant → List Byte → Prop
  | shown {d d' : Driver} (colors : List Color) (hold : old = some d) (hnew : new = some d')
      (hcfg : d'.cfg = d.cfg) : FrameSource old new (.showFrame colors) d.cfg.variant d'.tb.bytes
  | configured (n : Int) (q : Rat) (v : Variant) (hold : old = none) :
      FrameSource old new (.configure n q v) v (List.replicate (n.toNat * bpl v) (offByte v))

/-- The variant is that of the driver there was. -/
theorem FrameSource.variant_eq {old new : Option Driver} {i : Instr} {v : Variant} {frame : List Byte}
    {d : Driver} (h : FrameSource old new i v frame) (hd : old = some d) : v = d.cfg.variant := by
  cases h with
  | shown colors hold => rw [Option.some.inj (hold.symm.trans hd)]
  | configured n q v hold => cases hold.symm.trans hd

/-- All that a command exchanges with the outside: an answer other than TransportError and no send, or
the sends of its frame and the answer they lead to. -/
inductive CommandEffect (i : Instr) (s t : State) : Prop
  | silent {w : Word} (hw : w ≠ errorResponse .transportError) (h : Exchange s t w [])
  | sending {v : Variant} {frame : List Byte} {a : SendAnswer} {new : List TxEvent}
      (hsource : FrameSource s.driver t.driver i v frame) (hlog : FrameLog frame v a new)
      (h : Exchange s t (frameResponse a) new)

theorem CommandEffect.exchange {i : Instr} {s t : State} (h : CommandEffect i s t) :
    ∃ w new, Exchange s t w new := by
  cases h with
  | silent _ h => exact ⟨_, _, h⟩
  | sending _ _ h => exact ⟨_, _, h⟩

theorem CommandEffect.of_raise (i : Instr) (s : State) {e : ErrorKind}
    (he : e.code ≠ ErrorKind.transportError.code) : CommandEffect i s (s.raise e) :=
  .silent (responseWord_ne _ _ he) (.of_raise s e)

/-- A command of a state that meets the invariant ends, with one of these effects. -/
theorem exec_completes (i : Instr) {s : State} (hi : s.Inv) :
    ∃ t, exec i s = .next t ∧ CommandEffect i s t := by
  have raised {e : ErrorKind} (he : e.code ≠ ErrorKind.transportError.code) (h : exec i s = .next (s.raise e)) :
      ∃ t, exec i s = .next t ∧ CommandEffect i s t := ⟨_, h, .of_raise i s he⟩
  cases hd : s.driver with
  | none =>
    cases i with
    | fill cs k => exact raised (by decide) (execFill_none cs k hd)
    | showFrame cs => exact raised (by decide) (execShowFrame_none cs hd)
    | configure n q v =>
      have hexec := execConfigure_eq s n q v hd
      split at hexec
      · exact raised (by decide) hexec
      · obtain ⟨a, new, hlog, hx⟩ := s.commission_exchange ((Driver.allocate n.toNat q v).framed []) v
          (frameOf { ledCount := n.toNat, intensity := q, variant := v } [])
        exact ⟨_, hexec, .sending (.configured n q v hd) hlog hx⟩
  | some d =>
    cases i with
    | configure n q v => exact raised (by decide) (execConfigure_some n q v hd)
    | fill cs k =>
      have hexec := execFill_eq s d cs k hi hd
      split at hexec
      · exact raised (by decide) hexec
      · exact ⟨_, hexec, .silent (responseWord_ne _ _ (by decide)) (.of_respond s _ _)⟩
    | showFrame cs =>
      have hexec := execShowFrame_eq s d cs hi hd
      split at hexec
      · exact raised (by decide) hexec
      · obtain ⟨a, new, hlog, hx⟩ := s.transmit_exchange (d.framed cs) d.cfg.variant (frameOf d.cfg cs)
        obtain ⟨-, -, hsize, -, -⟩ := hi.2.2 d hd
        rw [← Driver.framed_bytes d cs hsize (by omega)] at hlog hx hexec
        exact ⟨_, hexec, .sending (.shown cs hd (s.transmit_frame _ _).1 rfl) hlog hx⟩

theorem exec_commandEffect {i : Instr} {s t : State} (hi : s.Inv) (h : exec i s = .next t) :
    CommandEffect i s t := by
  obtain ⟨t', h', heffect⟩ := exec_completes i hi
  obtain rfl : t' = t := Host.Outcome.next.inj (h'.symm.trans h)
  exact heffect

/-! ## A step and a run to the last packet -/

theorem step_of_cmdIn_nil {s : State} (h : s.cmdIn = []) : step s = .next s := by
  simp only [step, State.takePacket, h, State.idle]

theorem step_of_decode_error {s : State} {p : Packet} {rest : List Packet} {e : Invalid}
    (h : s.cmdIn = p :: rest) (hdec : decode p = .error e) :
    step s = .next (State.raise { s with cmdIn := rest } .illegalCommand) := by
  simp only [step, State.takePacket, h, hdec, State.rejectPacket_eq]

theorem step_of_decode_ok {s : State} {p : Packet} {rest : List Packet} {i : Instr}
    (h : s.cmdIn = p :: rest) (hdec : decode p = .ok i) : step s = exec i { s with cmdIn := rest } := by
  simp only [step, State.takePacket, h, hdec]

/-- A step with a packet presented takes it and answers once. -/
theorem step_completes {s : State} {p : Packet} {rest : List Packet} (hi : s.Inv) (h : s.cmdIn = p :: rest) :
    ∃ t w new, step s = .next t ∧ Exchange { s with cmdIn := rest } t w new := by
  cases hdec : decode p with
  | error e => exact ⟨_, _, _, step_of_decode_error h hdec, .of_raise _ _⟩
  | ok i =>
    obtain ⟨t, hexec, heffect⟩ := exec_completes i (s := { s with cmdIn := rest }) hi
    obtain ⟨w, new, hx⟩ := heffect.exchange
    exact ⟨t, w, new, (step_of_decode_ok h hdec).trans hexec, hx⟩

/-- All that a step can do at the transport: make no send and not answer TransportError, or make the sends
of a command's frame. -/
theorem step_sends {s t : State} (hi : s.Inv) (h : step s = .next t) :
    (t.txlog = s.txlog ∧ t.sends = s.sends ∧ t.responses ≠ s.responses ++ [errorResponse .transportError])
      ∨ ∃ p rest i v frame a new, s.cmdIn = p :: rest ∧ decode p = .ok i
          ∧ FrameSource s.driver t.driver i v frame ∧ FrameLog frame v a new
          ∧ Exchange { s with cmdIn := rest } t (frameResponse a) new := by
  obtain rfl | ⟨p, rest, hcmd, rfl | ⟨i, hdec, hexec⟩⟩ := step_cases h
  · exact .inl ⟨rfl, rfl, by simp⟩
  · exact .inl ⟨rfl, rfl, fun heq =>
      absurd (((Exchange.of_raise { s with cmdIn := rest } _).responses_eq_iff _).mp heq) (by decide)⟩
  · cases exec_commandEffect (s := { s with cmdIn := rest }) hi hexec with
    | silent hw hx =>
      exact .inl ⟨by simpa using hx.txlog, hx.sends, fun heq => hw ((hx.responses_eq_iff _).mp heq)⟩
    | sending hsource hlog hx => exact .inr ⟨p, rest, i, _, _, _, _, hcmd, hdec, hsource, hlog, hx⟩

/-- A run goes on from where its first step ends. -/
theorem run_succ_of_step {s t : State} (h : step s = .next t) (k : Nat) :
    Host.Core.run core (k + 1) s = Host.Core.run core k t := by
  have hstep : core.step s = .next t := h
  simp only [Host.Core.run, hstep]

/-- As many steps as packets are presented answer each of them once. -/
theorem run_completes (packets : List Packet) {s : State} (hi : s.Inv) (h : s.cmdIn = packets) :
    ∃ t : State, Host.Core.run core packets.length s = .next t ∧ t.cmdIn = [] ∧ t.Inv
      ∧ t.responses.length = s.responses.length + packets.length ∧ s.txlog <+: t.txlog := by
  induction packets generalizing s with
  | nil => exact ⟨s, rfl, h, hi, rfl, List.prefix_rfl⟩
  | cons p rest ih =>
    obtain ⟨t, w, new, hstep, hcmd, hresp, htx, -⟩ := step_completes hi h
    obtain ⟨u, hrun, hdone, hinv, hcount, hpre⟩ := ih (everyStepKeepsTheInvariant s t hi hstep) hcmd
    refine ⟨u, (run_succ_of_step hstep _).trans hrun, hdone, hinv, ?_, ?_⟩
    · have hone : t.responses.length = s.responses.length + 1 := by rw [hresp, List.length_append]; rfl
      rw [hcount, hone, List.length_cons]
      omega
    · exact (htx ▸ List.prefix_append _ _ : s.txlog <+: t.txlog).trans hpre

/-! ## The protocol bits of a channel (30 R62, R63) -/

/-- A table byte is the patterns of its two bits. -/
theorem byteBits_lut (g : BitVec 2) :
    byteBits (lut g) = protocolBit .standard (g.getLsbD 1) ++ protocolBit .standard (g.getLsbD 0) := by
  revert g
  decide

/-- A symbol is the pattern of its bit, most significant first. -/
theorem symbol_bits (b : Bool) :
    (symbol b).getLsbD 4 = true ∧ (symbol b).getLsbD 3 = b ∧ (symbol b).getLsbD 2 = b
      ∧ (symbol b).getLsbD 1 = b ∧ (symbol b).getLsbD 0 = false := by
  cases b <;> decide

/-- Bit `n` of a symbol stream is a bit of the symbol of source bit `n / 5`. The width is written as the
sum of the symbols' widths so that `BitVec.getLsbD_append` applies. -/
theorem getLsbD_symbolStream (b : Byte) {n : Nat} (hn : n < 40) :
    (symbolStream b).getLsbD n = (symbol (b.getLsbD (n / 5))).getLsbD (n % 5) := by
  unfold symbolStream
  change BitVec.getLsbD (w := 5 + 5 + 5 + 5 + 5 + 5 + 5 + 5) _ n = _
  simp only [BitVec.getLsbD_append]
  interval_cases n <;> rfl

theorem wireBits_append (xs ys : List Byte) : wireBits (xs ++ ys) = wireBits xs ++ wireBits ys :=
  List.flatMap_append

theorem wireBits_encStd (b : Byte) : wireBits (encStd b) = (byteBits b).flatMap (protocolBit .standard) := by
  simp only [wireBits, encStd, List.flatMap_cons, List.flatMap_nil, byteBits_lut]
  simp [byteBits]

theorem wireBits_encExt (b : Byte) : wireBits (encExt b) = (byteBits b).flatMap (protocolBit .extended) := by
  simp [wireBits, encExt, byteBits, getLsbD_symbolStream, symbol_bits, protocolBit,
    -BitVec.getLsbD_eq_getElem]

theorem wireBits_encChannel (v : Variant) (b : Byte) :
    wireBits (encChannel v b) = (byteBits b).flatMap (protocolBit v) := by
  cases v with
  | standard => exact wireBits_encStd b
  | extended => exact wireBits_encExt b

/-! ## The place of a channel byte (20 R43) -/

/-- Byte `k` of wire channel `j` in a colour's encoding. -/
theorem getElem?_encColor (cfg : Cfg) (c : Color) {j k : Nat} (hj : j < 3) (hk : k < bpc cfg.variant) :
    (encColor cfg c)[j * bpc cfg.variant + k]?
      = (encChannel cfg.variant (scale (wireChannel c j) cfg.intensity))[k]? := by
  have hlen := length_encChannel cfg.variant
  unfold encColor
  match j, hj with
  | 0, _ =>
    rw [List.append_assoc, List.getElem?_append_left (by rw [hlen]; omega), Nat.zero_mul, Nat.zero_add]
    rfl
  | 1, _ =>
    rw [List.append_assoc, List.getElem?_append_right (by rw [hlen]; omega),
      List.getElem?_append_left (by rw [hlen, hlen]; omega), hlen, Nat.one_mul, Nat.add_sub_cancel_left]
    rfl
  | 2, _ =>
    rw [List.getElem?_append_right (by rw [List.length_append, hlen, hlen]; omega), List.length_append,
      hlen, hlen, Nat.two_mul, Nat.add_sub_cancel_left]
    rfl

/-- A byte of a channel is a byte of its slot. -/
theorem channel_lt_bpl {v : Variant} {j k : Nat} (hj : j < 3) (hk : k < bpc v) : j * bpc v + k < bpl v := by
  cases v <;> simp only [bpl, bpc, channels] at hk ⊢ <;> omega

/-- A byte of a slot, by its offset in the buffer. -/
theorem Driver.peek_slot {d : Driver} {slot b : Nat} (hs : d.tb.size = d.cfg.length)
    (hslot : slot < d.cfg.ledCount) (hb : b < bpl d.cfg.variant) :
    d.tb.peek (slotOffset d.cfg.variant slot + b) = (d.slotBytes slot)[b]? := by
  have hle := Nat.mul_le_mul_right (bpl d.cfg.variant) (Nat.succ_le_of_lt hslot)
  rw [Nat.succ_mul] at hle
  rw [Driver.slotBytes, getElem?_bytesFrom, if_pos hb, Memory.peek_eq,
    if_pos (by rw [hs, Cfg.length, slotOffset]; omega)]

/-! ## Writing the same bytes twice -/

theorem Memory.overwrite_overwrite_same {m : Memory} {addr : Nat} {bs : List Byte} (hm : m.wf)
    (h : addr + bs.length ≤ m.size) : (m.overwrite addr bs).overwrite addr bs = m.overwrite addr bs := by
  have hwf := Memory.overwrite_wf hm h
  refine Memory.eq_of_lookup (Memory.overwrite_wf hwf h) hwf rfl fun a _ => ?_
  rw [Memory.overwrite_lookup, Memory.overwrite_lookup]
  split <;> rfl

/-- The driver after a FILL, which writes only if its colours fit. -/
def Driver.afterFill (d : Driver) (cs : List Color) (k : Nat) : Driver :=
  if d.cfg.ledCount < k + cs.length then d else d.filled cs k

/-- The driver after a SHOW, which writes only if its colours fit. -/
def Driver.afterShow (d : Driver) (cs : List Color) : Driver :=
  if d.cfg.ledCount < cs.length then d else d.framed cs

theorem Driver.afterFill_afterFill {d : Driver} {n : Nat} (cs : List Color) (k : Nat) (hd : d.wf n) :
    (d.afterFill cs k).afterFill cs k = d.afterFill cs k := by
  obtain ⟨-, -, hsize, hwf, -⟩ := hd
  by_cases hfit : d.cfg.ledCount < k + cs.length
  · simp only [Driver.afterFill, hfit, if_true]
  · have hle : slotOffset d.cfg.variant k + (cs.flatMap (encColor d.cfg)).length ≤ d.tb.size := by
      rw [length_encColors, hsize, slotOffset, Cfg.length, ← Nat.add_mul]
      exact Nat.mul_le_mul_right _ (by omega)
    simp only [Driver.afterFill, Driver.filled, hfit, if_false, Memory.overwrite_overwrite_same hwf hle]

theorem Driver.afterShow_afterShow {d : Driver} {n : Nat} (cs : List Color) (hd : d.wf n) :
    (d.afterShow cs).afterShow cs = d.afterShow cs := by
  obtain ⟨-, -, hsize, hwf, -⟩ := hd
  by_cases hfit : d.cfg.ledCount < cs.length
  · simp only [Driver.afterShow, hfit, if_true]
  · have hle : 0 + (frameOf d.cfg cs).length ≤ d.tb.size := by
      rw [length_frameOf _ _ (by omega), hsize, Nat.zero_add]
    simp only [Driver.afterShow, Driver.framed, hfit, if_false, Memory.overwrite_overwrite_same hwf hle]

theorem execFill_driver {s t : State} {cs : List Color} {k : Nat} (hi : s.Inv)
    (h : execFill cs k s = .next t) : t.driver = s.driver.map (·.afterFill cs k) := by
  cases hd : s.driver with
  | none =>
    rw [execFill_none cs k hd, Host.Outcome.next.injEq] at h
    subst h
    exact hd
  | some d =>
    rw [execFill_eq s d cs k hi hd, Host.Outcome.next.injEq] at h
    subst h
    by_cases hfit : d.cfg.ledCount < k + cs.length <;> simp [Driver.afterFill, hfit, hd]

theorem execShowFrame_driver {s t : State} {cs : List Color} (hi : s.Inv)
    (h : execShowFrame cs s = .next t) : t.driver = s.driver.map (·.afterShow cs) := by
  cases hd : s.driver with
  | none =>
    rw [execShowFrame_none cs hd, Host.Outcome.next.injEq] at h
    subst h
    exact hd
  | some d =>
    rw [execShowFrame_eq s d cs hi hd, Host.Outcome.next.injEq] at h
    subst h
    by_cases hfit : d.cfg.ledCount < cs.length <;>
      simp [Driver.afterShow, hfit, hd, (s.transmit_frame _ _).1]

/-- A command keeps the invariant. -/
theorem exec_inv {i : Instr} {s t : State} (hi : s.Inv) (h : exec i s = .next t) : t.Inv := by
  obtain ⟨hlow, hhigh, hwf⟩ := hi
  rw [State.Inv, (exec_configEffect h).1]
  exact ⟨hlow, hhigh, (exec_driverEffect ⟨hlow, hhigh, hwf⟩ h).wf hwf⟩

/-- A rewriting of drivers that does nothing the second time does nothing to the optional one either. -/
theorem map_map_of_idempotent {o : Option Driver} {f : Driver → Driver} (h : ∀ d ∈ o, f (f d) = f d) :
    (o.map f).map f = o.map f := by
  cases o with
  | none => rfl
  | some d => exact congrArg some (h d rfl)

/-! ## A log on the wire, entry by entry (93 U4) -/

/-- What one entry may have put on the wire: all its bytes if sent, any prefix of them if failed. -/
def TxEvent.MayReachWire : TxEvent → List Byte → Prop
  | .sent bs, out => out = bs
  | .failed bs, out => out <+: bs

theorem mayReachWire_cons (e : TxEvent) (log : List TxEvent) (out : List Byte) :
    mayReachWire (e :: log) out ↔ ∃ a b, out = a ++ b ∧ e.MayReachWire a ∧ mayReachWire log b := by
  cases e with
  | sent bs => simp [mayReachWire, TxEvent.MayReachWire]
  | failed bs => simp only [mayReachWire, TxEvent.MayReachWire, and_left_comm]

theorem mayReachWire_singleton (e : TxEvent) (out : List Byte) :
    mayReachWire [e] out ↔ e.MayReachWire out := by
  simp [mayReachWire_cons, mayReachWire]

theorem mayReachWire_append (log log' : List TxEvent) (out : List Byte) :
    mayReachWire (log ++ log') out ↔ ∃ a b, out = a ++ b ∧ mayReachWire log a ∧ mayReachWire log' b := by
  induction log generalizing out with
  | nil => simp [mayReachWire]
  | cons e log ih =>
    simp only [List.cons_append, mayReachWire_cons, ih]
    constructor
    · rintro ⟨x, _, rfl, hx, a, b, rfl, ha, hb⟩
      exact ⟨x ++ a, b, (List.append_assoc ..).symm, ⟨x, a, rfl, hx, ha⟩, hb⟩
    · rintro ⟨_, b, rfl, ⟨x, a, rfl, hx, ha⟩, hb⟩
      exact ⟨x, a ++ b, List.append_assoc .., hx, a, b, rfl, ha, hb⟩

/-- A log without failures is on the wire as it stands. -/
theorem mayReachWire_of_all_sent {log : List TxEvent} (h : ∀ e ∈ log, ∃ bs, e = .sent bs) (out : List Byte) :
    mayReachWire log out ↔ out = log.flatMap TxEvent.bytes := by
  induction log generalizing out with
  | nil => rfl
  | cons e log ih =>
    obtain ⟨bs, rfl⟩ := h e List.mem_cons_self
    simp [mayReachWire_cons, TxEvent.MayReachWire, TxEvent.bytes, ih fun e he => h e (List.mem_cons_of_mem _ he)]

/-! ## Settled -/

/-- Settles O12, by induction over the packets presented. -/
theorem everyRunOfPacketsCompletes : Obligations.EveryRunOfPacketsCompletes := fun s hi =>
  run_completes s.cmdIn hi rfl

/-- Settles O40: each command of a state that meets the invariant ends. -/
theorem noStepFaultsOrIsRefused : Obligations.NoStepFaultsOrIsRefused := by
  intro s hi
  cases hcmd : s.cmdIn with
  | nil => exact ⟨s, step_of_cmdIn_nil hcmd⟩
  | cons p rest =>
    obtain ⟨t, -, -, hstep, -⟩ := step_completes hi hcmd
    exact ⟨t, hstep⟩

/-- Settles O20, channel by channel. -/
theorem colorOnTheWireIsItsProtocolBits : Obligations.ColorOnTheWireIsItsProtocolBits := by
  intro cfg c
  simp only [encColor, wireBits_append, wireBits_encChannel, List.flatMap_cons, List.flatMap_nil,
    List.append_nil, List.append_assoc]

/-- Settles O32: the slot holds the colour's encoding, and the encoding the channel's. -/
theorem showPlacesEveryChannelByte : Obligations.ShowPlacesEveryChannelByte := by
  intro s d colors hi hd hfit
  have hexec := execShowFrame_eq s d colors hi hd
  rw [if_neg (by omega)] at hexec
  refine ⟨_, hexec, fun i c hc j hj k hk => ?_⟩
  obtain ⟨-, -, hsize, -, -⟩ := hi.2.2 d hd
  have hslot : i < d.cfg.ledCount := (List.getElem?_eq_some_iff.mp hc).1.trans_le hfit
  have hpeek := Driver.peek_slot (d := d.framed colors) hsize hslot (channel_lt_bpl hj hk)
  rw [Driver.framed_slotBytes d colors i c hc] at hpeek
  rw [State.peek, (s.transmit_frame _ _).1, channelOffset, Nat.add_assoc]
  exact hpeek.trans (getElem?_encColor d.cfg c hj hk)

/-- Settles O35: the bytes written do not depend on what the buffer held. -/
theorem repeatingACommandKeepsTheBuffer : Obligations.RepeatingACommandKeepsTheBuffer := by
  intro s t u colors k hi
  have hwf := hi.2.2
  refine ⟨fun ht hu => ?_, fun ht hu => ?_⟩
  · rw [execFill_driver (exec_inv hi ht) hu, execFill_driver hi ht]
    exact map_map_of_idempotent fun d hd => Driver.afterFill_afterFill colors k (hwf d hd)
  · rw [execShowFrame_driver (exec_inv hi ht) hu, execShowFrame_driver hi ht]
    exact map_map_of_idempotent fun d hd => Driver.afterShow_afterShow colors (hwf d hd)

/-- Settles O37: the entries of a step that sends are a frame's, and the others make none. -/
theorem noSendIsRetried : Obligations.NoSendIsRetried := by
  intro s t hi h
  obtain ⟨htx, hsends, hresp⟩ | ⟨p, rest, i, v, frame, a, new, hcmd, hdec, hsource, hlog, hx⟩ :=
    step_sends hi h
  · exact ⟨[], by simpa using htx, hsends, by simp, by simp, by simp, by simp,
      ⟨fun ⟨bs, hbs⟩ => absurd hbs List.not_mem_nil, fun heq => absurd heq hresp⟩, by simp⟩
  · refine ⟨new, hx.txlog, hx.sends, hlog.length_le_two, hlog.sent_of_mem_dropLast,
      fun e he => ⟨p, rest, hcmd, ?_⟩, fun e => hlog.bytes_of_second, hlog.failed_mem_iff.trans ?_,
      fun d hd hv => hlog.length_le_one ((hsource.variant_eq hd).trans hv)⟩
    · cases hsource with
      | shown colors hold hnew hcfg =>
        exact .inl ⟨colors, _, hdec, hnew, hlog.bytes_of_first he, fun hv => hlog.length_le_one (hcfg ▸ hv)⟩
      | configured n q v => exact .inr ⟨n, q, v, hdec, hlog.bytes_of_first he, hlog.length_le_one⟩
    · exact ((hx.responses_eq_iff _).trans (frameResponse_eq_transportError_iff a)).symm

/-- Settles O45: the log is read entry by entry, and the two examples joined from their entries. -/
theorem wireContentsOfALog : Obligations.WireContentsOfALog := by
  refine ⟨fun _ => Iff.rfl, fun bs => mayReachWire_singleton (.sent bs),
    fun bs => mayReachWire_singleton (.failed bs), mayReachWire_append, fun frame out => ?_,
    fun log out h => mayReachWire_of_all_sent h out⟩
  rw [mayReachWire_cons]
  simp only [mayReachWire_singleton, TxEvent.MayReachWire]
  constructor
  · rintro ⟨_, pre, rfl, rfl, hpre⟩
    exact ⟨pre, hpre, rfl⟩
  · rintro ⟨pre, hpre, rfl⟩
    exact ⟨frame, pre, rfl, rfl, hpre⟩

/-- Settles O21: slot, channel and byte are the digits of the offset. -/
theorem everyOffsetHasOnePlaceInOneSlot : Obligations.EveryOffsetHasOnePlaceInOneSlot := by
  intro v a
  constructor
  · refine ⟨a / bpl v, a % bpl v / bpc v, a % bpc v, ?_⟩
    cases v <;> simp only [channelOffset, slotOffset, slotOf, bpl, bpc, channels, and_true] <;> omega
  · intro s j k s' j' k' hj hk hj' hk' heq
    cases v <;> simp only [channelOffset, slotOffset, bpl, bpc, channels] at hk hk' heq <;> omega

end Sys2Proof.Machine
end

section
/-! SUPPORT. The proofs about the command packets and the codes (spec 30_encoding): which packet carries
which command, which packets are illegal, what the assembler emits, what answers a packet, and the bytes
the encoders put in the buffer. -/

namespace Sys2Proof

/-! ## Operands that fit their fields -/

/-- A number in the range of a field is the value of some bits. -/
theorem exists_toNat_eq {w : Nat} {n : Int} (h0 : 0 ≤ n) (h1 : n < (2 ^ w : Nat)) :
    ∃ x : BitVec w, n = x.toNat := by
  lift n to Nat using h0
  have hn : n < 2 ^ w := by exact_mod_cast h1
  exact ⟨BitVec.ofNat w n, by rw [BitVec.toNat_ofNat, Nat.mod_eq_of_lt hn]⟩

theorem fitsChannel_iff (c : Int) : fitsChannel c = true ↔ ∃ b : BitVec 8, c = b.toNat := by
  simp only [fitsChannel, Bool.and_eq_true, decide_eq_true_eq]
  constructor
  · exact fun ⟨h0, h1⟩ => exists_toNat_eq h0 h1
  · rintro ⟨b, rfl⟩
    have := b.isLt
    omega

theorem fitsField16_iff (n : Int) : fitsField16 n = true ↔ ∃ x : BitVec 16, n = x.toNat := by
  simp only [fitsField16, Bool.and_eq_true, decide_eq_true_eq]
  constructor
  · exact fun ⟨h0, h1⟩ => exists_toNat_eq h0 h1
  · rintro ⟨x, rfl⟩
    have := x.isLt
    omega

theorem fitsField16_natCast {n : Nat} (h : n < 65536) : fitsField16 n = true := by
  simp only [fitsField16, Bool.and_eq_true, decide_eq_true_eq]
  omega

theorem intensityFixed_mkRat (i : Int) : intensityFixed (mkRat i 65536) = i := fixedPoint_of_mkRat i

theorem fitsIntensity_mkRat {i : Int} (h0 : 0 ≤ i) (h1 : i < 4294967296) :
    fitsIntensity (mkRat i 65536) = true := by
  have hnum : 0 ≤ (mkRat i 65536).num := Rat.num_nonneg.mpr (Rat.mkRat_nonneg h0 65536)
  simp only [fitsIntensity, hnum, den_mkRat_dvd, intensityFixed_mkRat, h1, decide_true, Bool.and_self]

theorem fitsIntensity_iff (q : Rat) : fitsIntensity q = true ↔ ∃ w : Word, q = mkRat w.toNat 65536 := by
  constructor
  · intro h
    simp only [fitsIntensity, Bool.and_eq_true, decide_eq_true_eq] at h
    obtain ⟨⟨hnum, hden⟩, hlt⟩ := h
    have hpos : 0 ≤ intensityFixed q := Int.ediv_nonneg (by omega) (by omega)
    obtain ⟨w, hw⟩ := exists_toNat_eq (w := 32) hpos hlt
    exact ⟨w, by rw [← hw]; exact (mkRat_of_fixedPoint q hden).symm⟩
  · rintro ⟨w, rfl⟩
    have := w.isLt
    exact fitsIntensity_mkRat (by omega) (by omega)

theorem encodeIntensity_mkRat (i : Int) : encodeIntensity (mkRat i 65536) = BitVec.ofInt 32 i :=
  congrArg (BitVec.ofInt 32) (fixedPoint_of_mkRat i)

/-- A field's value written back into the field. -/
theorem ofInt_toNat {w : Nat} (x : BitVec w) : BitVec.ofInt w x.toNat = x := by
  rw [BitVec.ofInt_natCast, BitVec.ofNat_toNat, BitVec.setWidth_eq]

/-! ## Colour words (30 R77) -/

/-- The colour of three channel bytes. -/
def colorOf (r g b : Byte) : Color := { r := r.toNat, g := g.toNat, b := b.toNat }

theorem color_fits_iff (c : Color) : c.fits = true ↔ ∃ r g b, c = colorOf r g b := by
  simp only [Color.fits, Bool.and_eq_true, fitsChannel_iff]
  constructor
  · rintro ⟨⟨⟨r, hr⟩, g, hg⟩, b, hb⟩
    exact ⟨r, g, b, by rw [colorOf, ← hr, ← hg, ← hb]⟩
  · rintro ⟨r, g, b, rfl⟩
    exact ⟨⟨⟨r, rfl⟩, g, rfl⟩, b, rfl⟩

theorem encodeColor_colorOf (r g b : Byte) : encodeColor (colorOf r g b) = 0#8 ++ r ++ g ++ b := by
  simp only [encodeColor, colorOf, ofInt_toNat]

/-- A colour word decodes to the one colour whose word it is. -/
theorem decodeColor_eq_ok_iff (w : Word) (c : Color) :
    decodeColor w = .ok c ↔ c.fits = true ∧ encodeColor c = w := by
  constructor
  · intro h
    unfold decodeColor at h
    split at h
    · rename_i hzero
      cases h
      exact ⟨(color_fits_iff _).mpr ⟨_, _, _, rfl⟩,
        (encodeColor_colorOf _ _ _).trans (by rw [← hzero]; exact word_eq_bytes w)⟩
    · cases h
  · rintro ⟨hfits, rfl⟩
    obtain ⟨r, g, b, rfl⟩ := (color_fits_iff c).mp hfits
    obtain ⟨hzero, hr, hg, hb⟩ := joinedBytes_fields r g b
    rw [encodeColor_colorOf, decodeColor, if_pos hzero, hr, hg, hb]
    rfl

theorem decodeColor_error_iff (w : Word) : (∃ e, decodeColor w = .error e) ↔ w.extractLsb' 24 8 ≠ 0#8 := by
  unfold decodeColor
  split <;> simp_all

theorem decodeColors_cons_eq_ok_iff (w : Word) (ws : List Word) (cs : List Color) :
    decodeColors (w :: ws) = .ok cs
      ↔ ∃ c cs', cs = c :: cs' ∧ decodeColor w = .ok c ∧ decodeColors ws = .ok cs' := by
  rw [decodeColors]
  cases decodeColor w with
  | error e => simp
  | ok c => cases decodeColors ws <;> simp [eq_comm]

/-- Payload words decode to the one list of colours whose words they are. -/
theorem decodeColors_eq_ok_iff (ws : List Word) (cs : List Color) :
    decodeColors ws = .ok cs ↔ cs.all Color.fits = true ∧ cs.map encodeColor = ws := by
  induction ws generalizing cs with
  | nil => cases cs <;> simp [decodeColors]
  | cons w ws ih =>
    simp only [decodeColors_cons_eq_ok_iff, decodeColor_eq_ok_iff, ih]
    cases cs with
    | nil => simp
    | cons c cs => simp [and_assoc, and_left_comm]

theorem decodeColors_error_iff (ws : List Word) :
    (∃ e, decodeColors ws = .error e) ↔ ∃ w ∈ ws, w.extractLsb' 24 8 ≠ 0#8 := by
  induction ws with
  | nil => simp [decodeColors]
  | cons w ws ih =>
    rw [List.exists_mem_cons_iff, ← decodeColor_error_iff w, ← ih, decodeColors]
    cases decodeColor w with
    | error e => simp
    | ok c => cases decodeColors ws <;> simp

/-! ## The rows of the decoder (30 R72, R79) -/

section
variable {h : Word} (ws : List Word)

theorem decode_configureRow (hop : opcodeOf h = 1#8) : decode (h :: ws) = decodeConfigure h ws := by
  simp [decode, hop]

theorem decode_fillRow (hop : opcodeOf h = 2#8) : decode (h :: ws) = decodeFill h ws := by
  simp [decode, hop]

theorem decode_showRow (hop : opcodeOf h = 3#8) : decode (h :: ws) = decodeShow h ws := by
  simp [decode, hop]

theorem decode_reservedRow (h1 : opcodeOf h ≠ 1#8) (h2 : opcodeOf h ≠ 2#8) (h3 : opcodeOf h ≠ 3#8) :
    decode (h :: ws) = .error .reservedOpcode := by
  rw [decode]
  split
  · exact absurd (BitVec.eq_of_toNat_eq ‹_›) h1
  · exact absurd (BitVec.eq_of_toNat_eq ‹_›) h2
  · exact absurd (BitVec.eq_of_toNat_eq ‹_›) h3
  · rfl

end

/-! ## Which packet carries which command -/

/-- The packets of the three formats and their commands, by the fields (30 R71, R74, R77). -/
inductive Carries : Packet → Instr → Prop
  | configure (n : BitVec 16) (v : Variant) (w : Word) :
      Carries [headerConfigure n v, w] (.configure n.toNat (mkRat w.toNat 65536) v)
  | fill (k : BitVec 16) {ws : List Word} {cs : List Color} (h : decodeColors ws = .ok cs) :
      Carries (headerFill k :: ws) (.fill cs k.toNat)
  | showFrame {ws : List Word} {cs : List Color} (h : decodeColors ws = .ok cs) :
      Carries (headerShow :: ws) (.showFrame cs)

theorem eq_headerConfigure {h : Word} (hop : opcodeOf h = 1#8) (hres : h.extractLsb' 17 7 = 0#7) :
    h = headerConfigure (h.extractLsb' 0 16) (variantOfBit (h.getLsbD 16)) := by
  rw [headerConfigure, bitOfVariant_variantOfBit, ← hres, ← hop]
  exact (word_eq_fields_configure h).symm

theorem eq_headerFill {h : Word} (hop : opcodeOf h = 2#8) (hres : h.extractLsb' 16 8 = 0#8) :
    h = headerFill (h.extractLsb' 0 16) := by
  rw [headerFill, ← hop, ← hres]
  exact (word_eq_fields_fill h).symm

theorem eq_headerShow {h : Word} (hop : opcodeOf h = 3#8) (hres : h.extractLsb' 0 24 = 0#24) :
    h = headerShow := by
  rw [headerShow, ← hop, ← hres]
  exact (word_eq_fields_show h).symm

theorem carries_of_decodeConfigure {h : Word} {ws : List Word} {i : Instr} (hop : opcodeOf h = 1#8)
    (hdec : decodeConfigure h ws = .ok i) : Carries (h :: ws) i := by
  unfold decodeConfigure at hdec
  split at hdec
  · rename_i hres
    split at hdec <;> cases hdec
    nth_rw 1 [eq_headerConfigure hop hres]
    exact .configure _ _ _
  · cases hdec

theorem carries_of_decodeFill {h : Word} {ws : List Word} {i : Instr} (hop : opcodeOf h = 2#8)
    (hdec : decodeFill h ws = .ok i) : Carries (h :: ws) i := by
  unfold decodeFill at hdec
  split at hdec
  · rename_i hres
    split at hdec <;> cases hdec
    nth_rw 1 [eq_headerFill hop hres]
    exact .fill _ ‹_›
  · cases hdec

theorem carries_of_decodeShow {h : Word} {ws : List Word} {i : Instr} (hop : opcodeOf h = 3#8)
    (hdec : decodeShow h ws = .ok i) : Carries (h :: ws) i := by
  unfold decodeShow at hdec
  split at hdec
  · rename_i hres
    split at hdec <;> cases hdec
    rw [eq_headerShow hop hres]
    exact .showFrame ‹_›
  · cases hdec

/-- The decoder reads a command exactly from the packets that carry it. -/
theorem decode_eq_ok_iff (p : Packet) (i : Instr) : decode p = .ok i ↔ Carries p i := by
  constructor
  · intro hdec
    cases p with
    | nil => cases hdec
    | cons h ws =>
      by_cases h1 : opcodeOf h = 1#8
      · exact carries_of_decodeConfigure h1 ((decode_configureRow ws h1).symm.trans hdec)
      by_cases h2 : opcodeOf h = 2#8
      · exact carries_of_decodeFill h2 ((decode_fillRow ws h2).symm.trans hdec)
      by_cases h3 : opcodeOf h = 3#8
      · exact carries_of_decodeShow h3 ((decode_showRow ws h3).symm.trans hdec)
      · cases (decode_reservedRow ws h1 h2 h3).symm.trans hdec
  · intro hc
    cases hc with
    | configure n v w =>
      obtain ⟨hop, hres, hn, hv⟩ := headerConfigure_fields n v
      rw [decode_configureRow _ hop, decodeConfigure, if_pos hres, hn, hv]
    | fill k h =>
      obtain ⟨hop, hres, hk⟩ := headerFill_fields k
      rw [decode_fillRow _ hop, decodeFill, if_pos hres, h, hk]
    | showFrame h =>
      rw [decode_showRow _ (by decide), decodeShow, if_pos (by decide), h]

theorem wellFormed_configure_iff (n : Int) (q : Rat) (v : Variant) :
    (Instr.configure n q v).wellFormed = true
      ↔ (∃ x : BitVec 16, n = x.toNat) ∧ ∃ w : Word, q = mkRat w.toNat 65536 := by
  rw [Instr.wellFormed, Bool.and_eq_true, fitsField16_iff, fitsIntensity_iff]

theorem wellFormed_fill_iff (cs : List Color) (k : Nat) :
    (Instr.fill cs k).wellFormed = true ↔ cs.all Color.fits = true ∧ ∃ x : BitVec 16, k = x.toNat := by
  rw [Instr.wellFormed, Bool.and_eq_true, fitsField16_iff]
  simp only [Int.ofNat_inj]

theorem encode_configure (n : BitVec 16) (v : Variant) (w : Word) :
    encode (.configure n.toNat (mkRat w.toNat 65536) v) = [headerConfigure n v, w] := by
  rw [encode, encodeIntensity_mkRat, ofInt_toNat, ofInt_toNat]

theorem encode_fill (cs : List Color) (k : BitVec 16) :
    encode (.fill cs k.toNat) = headerFill k :: cs.map encodeColor := by
  rw [encode, BitVec.ofNat_toNat, BitVec.setWidth_eq]

/-- The encoder makes, of the commands whose operands fit, exactly the packets that carry them. -/
theorem wellFormed_encode_iff (p : Packet) (i : Instr) :
    i.wellFormed = true ∧ encode i = p ↔ Carries p i := by
  constructor
  · rintro ⟨hwf, rfl⟩
    cases i with
    | configure n q v =>
      obtain ⟨⟨x, rfl⟩, w, rfl⟩ := (wellFormed_configure_iff n q v).mp hwf
      exact encode_configure x v w ▸ .configure x v w
    | fill cs k =>
      obtain ⟨hcs, x, rfl⟩ := (wellFormed_fill_iff cs k).mp hwf
      exact encode_fill cs x ▸ .fill x ((decodeColors_eq_ok_iff _ _).mpr ⟨hcs, rfl⟩)
    | showFrame cs => exact .showFrame ((decodeColors_eq_ok_iff _ _).mpr ⟨hwf, rfl⟩)
  · intro hc
    cases hc with
    | configure n v w =>
      exact ⟨(wellFormed_configure_iff _ _ v).mpr ⟨⟨n, rfl⟩, w, rfl⟩, encode_configure n v w⟩
    | fill k h =>
      obtain ⟨hcs, rfl⟩ := (decodeColors_eq_ok_iff _ _).mp h
      exact ⟨(wellFormed_fill_iff _ _).mpr ⟨hcs, k, rfl⟩, encode_fill _ k⟩
    | showFrame h =>
      obtain ⟨hcs, rfl⟩ := (decodeColors_eq_ok_iff _ _).mp h
      exact ⟨hcs, rfl⟩

/-! ## Illegal packets (30 R80) -/

theorem decodeConfigure_error_iff (h : Word) (ws : List Word) :
    (∃ e, decodeConfigure h ws = .error e) ↔ h.extractLsb' 17 7 ≠ 0#7 ∨ ws.length ≠ 1 := by
  unfold decodeConfigure
  split
  · match ws with
    | [] => simp
    | [w] => simp_all
    | w :: w' :: ws => simp
  · simp_all

theorem decodeFill_error_iff (h : Word) (ws : List Word) :
    (∃ e, decodeFill h ws = .error e)
      ↔ h.extractLsb' 16 8 ≠ 0#8 ∨ ∃ w ∈ ws, w.extractLsb' 24 8 ≠ 0#8 := by
  rw [← decodeColors_error_iff, decodeFill]
  split
  · cases decodeColors ws <;> simp_all
  · simp_all

theorem decodeShow_error_iff (h : Word) (ws : List Word) :
    (∃ e, decodeShow h ws = .error e)
      ↔ h.extractLsb' 0 24 ≠ 0#24 ∨ ∃ w ∈ ws, w.extractLsb' 24 8 ≠ 0#8 := by
  rw [← decodeColors_error_iff, decodeShow]
  split
  · cases decodeColors ws <;> simp_all
  · simp_all

theorem decode_cons_error_iff (h : Word) (ws : List Word) :
    (∃ e, decode (h :: ws) = .error e) ↔
      (opcodeOf h ≠ 1#8 ∧ opcodeOf h ≠ 2#8 ∧ opcodeOf h ≠ 3#8)
        ∨ (opcodeOf h = 1#8 ∧ (h.extractLsb' 17 7 ≠ 0#7 ∨ (h :: ws).length ≠ 2))
        ∨ (opcodeOf h = 2#8 ∧ h.extractLsb' 16 8 ≠ 0#8)
        ∨ (opcodeOf h = 3#8 ∧ h.extractLsb' 0 24 ≠ 0#24)
        ∨ (opcodeOf h ≠ 1#8 ∧ ∃ w ∈ ws, w.extractLsb' 24 8 ≠ 0#8) := by
  by_cases h1 : opcodeOf h = 1#8
  · rw [decode_configureRow ws h1, decodeConfigure_error_iff]
    simp [h1]
  by_cases h2 : opcodeOf h = 2#8
  · rw [decode_fillRow ws h2, decodeFill_error_iff]
    simp [h2]
  by_cases h3 : opcodeOf h = 3#8
  · rw [decode_showRow ws h3, decodeShow_error_iff]
    simp [h3]
  · simp [decode_reservedRow ws h1 h2 h3, h1, h2, h3]

end Sys2Proof

namespace Sys2Proof.Machine

/-! ## The assembler (30 R74, R83) -/

theorem assemble_eq_ok_iff (line : AsmLine) (p : Packet) :
    line.assemble = .ok p ↔ ∃ i, line.command = .ok i ∧ encode i = p := by
  unfold AsmLine.assemble
  cases line.command <;> simp

theorem intensityFixed_eq_floor (q : Rat) : intensityFixed q = ⌊q * 65536⌋ := by
  have hq : q * 65536 = ((q.num * 65536 : Int) : Rat) / (q.den : Rat) := by
    rw [Int.cast_mul, mul_div_right_comm, Rat.num_div_den]
    rfl
  rw [hq, Rat.floor_intCast_div_natCast, intensityFixed]

theorem packetIntensity_eq (q : Rat) : packetIntensity q = mkRat ⌊q * 65536⌋ 65536 := by
  rw [← intensityFixed_eq_floor]
  rfl

/-- An intensity in the assembler's range fits the packet once it is floored. -/
theorem fitsIntensity_packetIntensity {q : Rat} (h0 : 0 ≤ q) (h1 : q < 65536) :
    fitsIntensity (packetIntensity q) = true := by
  rw [packetIntensity_eq]
  refine fitsIntensity_mkRat (Int.floor_nonneg.mpr (by linarith)) (Int.floor_lt.mpr ?_)
  push_cast
  linarith

/-- The assembler's range check on the numerator and denominator is the check on the value. -/
theorem intensityInRange_iff (q : Rat) :
    ¬ (q.num < 0 ∨ 65536 * (q.den : Int) ≤ q.num) ↔ 0 ≤ q ∧ q < 65536 := by
  have hlt : q < 65536 ↔ q.num < 65536 * (q.den : Int) := by
    rw [Rat.lt_iff, show ((65536 : Rat).den : Int) = 1 from rfl, show (65536 : Rat).num = 65536 from rfl,
      mul_one]
  rw [not_or, not_lt, not_le, Rat.num_nonneg, hlt]

theorem command_configure_iff (n : Nat) (q : Option Rat) (v : Option Variant) (i : Instr) :
    (AsmLine.configure n q v).command = .ok i ↔
      n < 65536 ∧ 0 ≤ q.getD 1 ∧ q.getD 1 < 65536
        ∧ i = .configure n (packetIntensity (q.getD 1)) (v.getD .standard) := by
  have hrange := intensityInRange_iff (q.getD 1)
  unfold AsmLine.command
  dsimp only [defaultIntensity]
  by_cases hn : 65536 ≤ n
  · rw [if_pos hn]
    simp [Nat.not_lt.mpr hn]
  rw [if_neg hn]
  by_cases hq : (q.getD 1).num < 0 ∨ 65536 * ((q.getD 1).den : Int) ≤ (q.getD 1).num
  · rw [if_pos hq]
    simp only [reduceCtorEq, false_iff]
    exact fun ⟨_, h0, h1, _⟩ => hrange.mpr ⟨h0, h1⟩ hq
  · rw [if_neg hq]
    obtain ⟨h0, h1⟩ := hrange.mp hq
    simp [Nat.not_le.mp hn, h0, h1, eq_comm]

theorem colors_fit_of_channelsFit {colors : List (Nat × Nat × Nat)} (h : channelsFit colors = true) :
    (colors.map asmColor).all Color.fits = true := by
  simpa [channelsFit, Color.fits, fitsChannel, asmColor] using h

/-- The command of a line has a packet. -/
theorem wellFormed_of_command {line : AsmLine} {i : Instr} (h : line.command = .ok i) :
    i.wellFormed = true := by
  cases line with
  | configure n q v =>
    obtain ⟨hn, h0, h1, rfl⟩ := (command_configure_iff n q v i).mp h
    rw [Instr.wellFormed, fitsField16_natCast hn, fitsIntensity_packetIntensity h0 h1, Bool.and_self]
  | fill slot colors =>
    rw [AsmLine.command] at h
    split at h
    · cases h
    · rename_i hslot
      split at h <;> cases h
      rw [Instr.wellFormed, colors_fit_of_channelsFit ‹_›, fitsField16_natCast (Nat.not_le.mp hslot),
        Bool.and_self]
  | showFrame colors =>
    rw [AsmLine.command] at h
    split at h <;> cases h
    exact colors_fit_of_channelsFit ‹_›
  | clear =>
    cases h
    rfl

/-- The packet of a CONFIGURE line. -/
theorem encode_configureLine (n : Nat) (q : Rat) (v : Variant) :
    encode (.configure n (packetIntensity q) v)
      = [headerConfigure (BitVec.ofNat 16 n) v, BitVec.ofInt 32 ⌊q * 65536⌋] := by
  rw [encode, packetIntensity_eq, encodeIntensity_mkRat, BitVec.ofInt_natCast]

/-! ## The word that answers a packet (30 R82) -/

theorem responseWord_reserved (status : BitVec 8) (value : BitVec 16) :
    (responseWord status value).extractLsb' 16 8 = 0#8 :=
  (field_of_high (status ++ 0#8) value 16 8 (by decide)).trans (field_low status 0#8)

theorem responseWord_value (status : BitVec 8) (value : BitVec 16) :
    (responseWord status value).extractLsb' 0 16 = value :=
  field_low (status ++ 0#8) value

/-- The words that can answer a packet, from what it decodes to: an error, OK with value 0, or for a FILL
OK with its next slot. -/
inductive Answers : Except Invalid Instr → Word → Prop
  | raised (r : Except Invalid Instr) (e : ErrorKind) : Answers r (errorResponse e)
  | done {r : Except Invalid Instr} (h : ∀ colors k, r ≠ .ok (.fill colors k)) : Answers r (okResponse 0)
  | filled {colors : List Color} {k : Nat} (h : k + colors.length ≤ 65535) :
      Answers (.ok (.fill colors k)) (okResponse (k + colors.length))

/-- The response to a command that sends is no FILL's. -/
theorem Answers.of_frame {r : Except Invalid Instr} (h : ∀ colors k, r ≠ .ok (.fill colors k))
    (a : SendAnswer) : Answers r (frameResponse a) := by
  cases a with
  | ok => exact .done h
  | failed => exact .raised r .transportError

theorem execConfigure_answers (s : State) (n : Int) (q : Rat) (v : Variant) :
    ∃ t w new, execConfigure n q v s = .next t ∧ Exchange s t w new ∧ Answers (.ok (.configure n q v)) w := by
  cases hd : s.driver with
  | some d => exact ⟨_, _, _, execConfigure_some n q v hd, .of_raise _ _, .raised _ _⟩
  | none =>
    have hexec := execConfigure_eq s n q v hd
    split at hexec
    · exact ⟨_, _, _, hexec, .of_raise _ _, .raised _ _⟩
    · obtain ⟨a, new, -, hx⟩ := s.commission_exchange ((Driver.allocate n.toNat q v).framed []) v
        (frameOf { ledCount := n.toNat, intensity := q, variant := v } [])
      exact ⟨_, _, _, hexec, hx, .of_frame (by simp) a⟩

theorem execFill_answers {s : State} (hi : s.Inv) (cs : List Color) (k : Nat) :
    ∃ t w new, execFill cs k s = .next t ∧ Exchange s t w new ∧ Answers (.ok (.fill cs k)) w := by
  cases hd : s.driver with
  | none => exact ⟨_, _, _, execFill_none cs k hd, .of_raise _ _, .raised _ _⟩
  | some d =>
    have hmax : s.maxLeds ≤ 65535 := hi.2.1
    obtain ⟨-, hle, -⟩ := hi.2.2 d hd
    have hexec := execFill_eq s d cs k hi hd
    split at hexec
    · exact ⟨_, _, _, hexec, .of_raise _ _, .raised _ _⟩
    · exact ⟨_, _, _, hexec, .of_respond _ _ _, .filled (by omega)⟩

theorem execShowFrame_answers {s : State} (hi : s.Inv) (cs : List Color) :
    ∃ t w new, execShowFrame cs s = .next t ∧ Exchange s t w new ∧ Answers (.ok (.showFrame cs)) w := by
  cases hd : s.driver with
  | none => exact ⟨_, _, _, execShowFrame_none cs hd, .of_raise _ _, .raised _ _⟩
  | some d =>
    have hexec := execShowFrame_eq s d cs hi hd
    split at hexec
    · exact ⟨_, _, _, hexec, .of_raise _ _, .raised _ _⟩
    · obtain ⟨a, new, -, hx⟩ := s.transmit_exchange (d.framed cs) d.cfg.variant (frameOf d.cfg cs)
      exact ⟨_, _, _, hexec, hx, .of_frame (by simp) a⟩

/-- A step that takes a packet answers it with one of its words. -/
theorem step_answers {s : State} {p : Packet} {rest : List Packet} (hi : s.Inv) (h : s.cmdIn = p :: rest) :
    ∃ t w new, step s = .next t ∧ Exchange { s with cmdIn := rest } t w new ∧ Answers (decode p) w := by
  cases hdec : decode p with
  | error e => exact ⟨_, _, _, step_of_decode_error h hdec, .of_raise _ _, .raised _ _⟩
  | ok i =>
    rw [step_of_decode_ok h hdec]
    cases i with
    | configure n q v => exact execConfigure_answers _ n q v
    | fill cs k => exact execFill_answers (s := { s with cmdIn := rest }) hi cs k
    | showFrame cs => exact execShowFrame_answers (s := { s with cmdIn := rest }) hi cs

section
variable {r : Except Invalid Instr} {w : Word}

theorem Answers.reserved (h : Answers r w) : w.extractLsb' 16 8 = 0#8 := by
  cases h <;> exact responseWord_reserved _ _

theorem Answers.status (h : Answers r w) :
    w.extractLsb' 24 8 ∈ [0x00#8, 0x01#8, 0x02#8, 0x03#8, 0x04#8] := by
  cases h with
  | raised _ e => cases e <;> decide
  | done => decide
  | filled => rw [okResponse, responseWord_status]; decide

theorem Answers.value_of_fill {colors : List Color} {k : Nat} (h : Answers (.ok (.fill colors k)) w)
    (hok : w.extractLsb' 24 8 = 0#8) : (w.extractLsb' 0 16).toNat = k + colors.length := by
  cases h with
  | raised _ e => cases e <;> exact absurd hok (by decide)
  | done h => exact absurd rfl (h colors k)
  | filled hk => rw [okResponse, responseWord_value, BitVec.toNat_ofNat, Nat.mod_eq_of_lt (by omega)]

theorem Answers.value_zero (h : Answers r w)
    (hno : w.extractLsb' 24 8 ≠ 0#8 ∨ ∀ colors k, r ≠ .ok (.fill colors k)) :
    w.extractLsb' 0 16 = 0#16 := by
  cases h with
  | raised _ e => exact responseWord_value _ _
  | done => exact responseWord_value _ _
  | filled =>
    rcases hno with hbad | hnone
    · exact absurd (responseWord_status _ _) hbad
    · exact absurd rfl (hnone _ _)

end

/-! ## The bytes of a code (30 R62, R64) -/

theorem lut_mem (g : BitVec 2) : lut g ∈ [0x11#8, 0x13#8, 0x31#8, 0x33#8] := by
  revert g
  decide

theorem mem_encStd {v b : Byte} (h : b ∈ encStd v) : b ∈ [0x11#8, 0x13#8, 0x31#8, 0x33#8] := by
  simp only [encStd, List.mem_cons, List.not_mem_nil, or_false] at h
  obtain rfl | rfl | rfl | rfl := h <;> exact lut_mem _

/-- The five byte formulas (30 R64). -/
theorem encExt_eq (v : Byte) : encExt v =
    [BitVec.ofNat 8 (0x84 + 0x70 * (v.getLsbD 7).toNat + 0x03 * (v.getLsbD 6).toNat),
     BitVec.ofNat 8 (0x21 + 0x80 * (v.getLsbD 6).toNat + 0x1C * (v.getLsbD 5).toNat),
     BitVec.ofNat 8 (0x08 + 0xE0 * (v.getLsbD 4).toNat + 0x07 * (v.getLsbD 3).toNat),
     BitVec.ofNat 8 (0x42 + 0x38 * (v.getLsbD 2).toNat + 0x01 * (v.getLsbD 1).toNat),
     BitVec.ofNat 8 (0x10 + 0xC0 * (v.getLsbD 1).toNat + 0x0E * (v.getLsbD 0).toNat)] :=
by
  simp only [encExt, symbolStream]
  generalize v.getLsbD 7 = b7, v.getLsbD 6 = b6, v.getLsbD 5 = b5, v.getLsbD 4 = b4, v.getLsbD 3 = b3,
    v.getLsbD 2 = b2, v.getLsbD 1 = b1, v.getLsbD 0 = b0
  revert b7 b6 b5 b4 b3 b2 b1 b0
  decide

/-- The four values of a byte formula with two source bits. -/
theorem byteFormula_mem (c p q : Nat) (x y : Bool) :
    BitVec.ofNat 8 (c + p * x.toNat + q * y.toNat)
      ∈ [BitVec.ofNat 8 c, BitVec.ofNat 8 (c + q), BitVec.ofNat 8 (c + p), BitVec.ofNat 8 (c + p + q)] := by
  cases x <;> cases y <;> simp

/-- The four values of each byte of an Extended code (30 R66). -/
theorem getElem?_encExt_cases {v b : Byte} {k : Nat} (h : (encExt v)[k]? = some b) :
    (k = 0 ∧ b ∈ [0x84#8, 0x87#8, 0xF4#8, 0xF7#8]) ∨ (k = 1 ∧ b ∈ [0x21#8, 0x3D#8, 0xA1#8, 0xBD#8])
      ∨ (k = 2 ∧ b ∈ [0x08#8, 0x0F#8, 0xE8#8, 0xEF#8]) ∨ (k = 3 ∧ b ∈ [0x42#8, 0x43#8, 0x7A#8, 0x7B#8])
      ∨ (k = 4 ∧ b ∈ [0x10#8, 0x1E#8, 0xD0#8, 0xDE#8]) := by
  rw [encExt_eq] at h
  match k with
  | 0 => cases h; exact .inl ⟨rfl, byteFormula_mem 0x84 0x70 0x03 _ _⟩
  | 1 => cases h; exact .inr (.inl ⟨rfl, byteFormula_mem 0x21 0x80 0x1C _ _⟩)
  | 2 => cases h; exact .inr (.inr (.inl ⟨rfl, byteFormula_mem 0x08 0xE0 0x07 _ _⟩))
  | 3 => cases h; exact .inr (.inr (.inr (.inl ⟨rfl, byteFormula_mem 0x42 0x38 0x01 _ _⟩)))
  | 4 => cases h; exact .inr (.inr (.inr (.inr ⟨rfl, byteFormula_mem 0x10 0xC0 0x0E _ _⟩)))
  | k + 5 => cases h

theorem zero_not_mem_encExt (v : Byte) : 0#8 ∉ encExt v := by
  intro hmem
  obtain ⟨k, hk⟩ := List.mem_iff_getElem?.mp hmem
  obtain ⟨-, h⟩ | ⟨-, h⟩ | ⟨-, h⟩ | ⟨-, h⟩ | ⟨-, h⟩ := getElem?_encExt_cases hk <;> revert h <;> decide

/-! ## The bytes of the buffer (30 R66) -/

/-- A byte of a colour's encoding is a byte of a channel's, at the offset's place in its channel. -/
theorem channelByte_of_colorByte {cfg : Cfg} {c : Color} {a : Nat} {b : Byte}
    (h : (encColor cfg c)[a % bpl cfg.variant]? = some b) :
    ∃ x, (encChannel cfg.variant x)[a % bpc cfg.variant]? = some b := by
  have hbpc : 0 < bpc cfg.variant := by cases cfg.variant <;> decide
  have hj : a % bpl cfg.variant / bpc cfg.variant < 3 :=
    Nat.div_lt_of_lt_mul (Nat.mod_lt a (bpl_pos _))
  have hk : a % bpl cfg.variant % bpc cfg.variant = a % bpc cfg.variant := Nat.mod_mul_right_mod ..
  have hplace := getElem?_encColor cfg c hj (Nat.mod_lt a hbpc)
  rw [← hk, Nat.div_add_mod', h] at hplace
  exact ⟨_, hk ▸ hplace.symm⟩

theorem Driver.slotByte_of_peek {d : Driver} {a : Nat} {b : Byte} (hs : d.tb.size = d.cfg.length)
    (h : d.tb.peek a = some b) :
    a / bpl d.cfg.variant < d.cfg.ledCount
      ∧ (d.slotBytes (a / bpl d.cfg.variant))[a % bpl d.cfg.variant]? = some b := by
  have ha : a < d.cfg.ledCount * bpl d.cfg.variant := by
    rw [Memory.peek_eq, hs] at h
    exact (Option.ite_none_right_eq_some.mp h).1
  have hslot : a / bpl d.cfg.variant < d.cfg.ledCount := Nat.div_lt_of_lt_mul (by rwa [Nat.mul_comm])
  refine ⟨hslot, ?_⟩
  rw [← Driver.peek_slot hs hslot (Nat.mod_lt a (bpl_pos _)), slotOffset, Nat.div_add_mod', h]

/-- A byte of a buffer of coded and off slots is a byte of some channel's code, or OFF. -/
theorem Driver.channelByte_or_off_of_peek {d : Driver} {a : Nat} {b : Byte} (hs : d.tb.size = d.cfg.length)
    (hslots : d.SlotsCodedOrOff) (h : d.tb.peek a = some b) :
    (∃ x, (encChannel d.cfg.variant x)[a % bpc d.cfg.variant]? = some b) ∨ b = offByte d.cfg.variant := by
  obtain ⟨hslot, hbyte⟩ := Driver.slotByte_of_peek hs h
  obtain ⟨c, hcoded⟩ | hoff := hslots _ hslot
  · exact .inl (channelByte_of_colorByte (hcoded ▸ hbyte))
  · rw [hoff] at hbyte
    exact .inr (List.eq_of_mem_replicate (List.mem_of_getElem? hbyte))

/-! ## Settled -/

/-- Settles O3: the packet carries the command, and the decoder reads what a packet carries. -/
theorem decodeInvertsEncode : Obligations.DecodeInvertsEncode := fun i hwf =>
  (decode_eq_ok_iff _ i).mpr ((wellFormed_encode_iff _ i).mp ⟨hwf, rfl⟩)

/-- Settles O4: the command the decoder reads is one the packet carries. -/
theorem legalPacketIsItsCommandsEncoding : Obligations.LegalPacketIsItsCommandsEncoding := fun p i hdec =>
  (wellFormed_encode_iff p i).mpr ((decode_eq_ok_iff p i).mp hdec)

/-- Settles O6: the rows of the decoder give the illegal packets, and each case raises IllegalCommand. -/
theorem illegalPacketsAreNotExecuted : Obligations.IllegalPacketsAreNotExecuted := by
  refine ⟨fun p => ?_, fun s p rest e hcmd hdec => step_of_decode_error hcmd hdec,
    fun s n q v hphase => ?_, fun s cs k hphase => ?_⟩
  · cases p with
    | nil => simp [decode]
    | cons h ws =>
      rw [decode_cons_error_iff]
      constructor
      · exact fun hbad => .inr ⟨h, ws, rfl, hbad⟩
      · rintro (hnil | ⟨_, _, heq, hbad⟩)
        · cases hnil
        · cases heq
          exact hbad
  · obtain ⟨d, hd⟩ := s.phase_ready_iff.mp hphase
    exact execConfigure_some n q v hd
  · have hnone := s.phase_unconfigured_iff.mp hphase
    exact ⟨execFill_none cs k hnone, execShowFrame_none cs hnone⟩

/-- Settles O8: the command of a line is well-formed, so its packet decodes to it. -/
theorem assembledLinesDecodeToTheirCommands : Obligations.AssembledLinesDecodeToTheirCommands := by
  refine ⟨fun line p h => ?_, fun n q v p h => ?_, fun n q v hn h0 h1 => ?_⟩
  · obtain ⟨i, hi, rfl⟩ := (assemble_eq_ok_iff line p).mp h
    have hwf := wellFormed_of_command hi
    exact ⟨i, hi, hwf, decodeInvertsEncode i hwf⟩
  · obtain ⟨i, hi, rfl⟩ := (assemble_eq_ok_iff _ p).mp h
    obtain ⟨hn, h0, h1, rfl⟩ := (command_configure_iff n q v i).mp hi
    exact ⟨hn, h0, h1, encode_configureLine n (q.getD 1) (v.getD .standard)⟩
  · have hi := (command_configure_iff n q v _).mpr ⟨hn, h0, h1, rfl⟩
    exact ⟨_, (assemble_eq_ok_iff _ _).mpr ⟨_, hi, rfl⟩⟩

/-- Settles O11, from the words that can answer the packet. -/
theorem everyPacketIsAnsweredOnce : Obligations.EveryPacketIsAnsweredOnce := by
  intro s t p rest hi hcmd h
  obtain ⟨t', w, new, hstep, hx, hans⟩ := step_answers hi hcmd
  obtain rfl : t' = t := Host.Outcome.next.inj (hstep.symm.trans h)
  exact ⟨hx.cmdIn, w, hx.responses, hans.reserved, hans.status,
    fun colors k hdec hok => (hdec ▸ hans).value_of_fill hok, hans.value_zero⟩

/-- Settles O44: a byte of the buffer is a byte of a channel's code, or OFF. -/
theorem onlyProtocolBytesInTheBuffer : Obligations.OnlyProtocolBytesInTheBuffer := by
  intro s d a b hi hslots hd hpeek
  obtain ⟨-, -, hsize, -, -⟩ := hi.2.2 d hd
  simp only [State.peek, hd] at hpeek
  have hbyte := Driver.channelByte_or_off_of_peek hsize (hslots d hd) hpeek
  constructor <;> intro hv <;> rw [hv] at hbyte
  · obtain ⟨x, hx⟩ | rfl := hbyte
    · exact mem_encStd (List.mem_of_getElem? hx)
    · decide
  · obtain ⟨x, hx⟩ | rfl := hbyte
    · exact .inr (getElem?_encExt_cases hx)
    · exact .inl rfl

/-- Settles O5: the words have the fields of the commands. -/
theorem specWordsDecodeAsWritten : Obligations.SpecWordsDecodeAsWritten :=
  ⟨rfl, rfl, rfl, rfl, rfl⟩

/-- Settles O7, by running the assembler on each line. -/
theorem assemblerExamplesOfTheSpec : Obligations.AssemblerExamplesOfTheSpec :=
  ⟨rfl, rfl, rfl, rfl, rfl, rfl, rfl, rfl, rfl, rfl, rfl, rfl, rfl⟩

/-- Settles O10: the packet of the word is the oldest one presented. -/
theorem tableWordIsRunByTheNextStep : Obligations.TableWordIsRunByTheNextStep := by
  intro s nbits w i h
  unfold decodeTableWord at h
  split at h <;> cases h
  exact step_of_decode_ok (s := s.withFetchWord nbits w) rfl ‹_›

/-- Settles O16: the formulas, and that none of their values is 0. -/
theorem extendedEncodingLaws : Obligations.ExtendedEncodingLaws :=
  ⟨encExt_eq, fun v => ⟨rfl, fun _ hb hzero => zero_not_mem_encExt v (hzero ▸ hb)⟩⟩

/-- Settles O42: a raise is one response word appended. -/
theorem raiseChangesOnlyTheResponse : Obligations.RaiseChangesOnlyTheResponse :=
  fun _ => ⟨rfl, rfl, rfl, rfl⟩

end Sys2Proof.Machine
end

section
/-! SUPPORT. The proofs about the channel encoder (spec 40_channel_encoder): SCALE as the floor of the exact
product, the reference decoders as inverses of the two encoders, and the encoding of a colour. -/

namespace Sys2Proof.Machine

/-! ## SCALE (40 R91, R92) -/

theorem floorProduct_eq_floor (c : Int) (q : Rat) : floorProduct c q = ⌊(c : Rat) * q⌋ := by
  have hproduct : (c : Rat) * q = ((c * q.num : Int) : Rat) / (q.den : Nat) := by
    rw [Int.cast_mul, mul_div_assoc, Rat.num_div_den]
  rw [hproduct, Rat.floor_intCast_div_natCast, floorProduct]

theorem toNat_scale (c : Int) (q : Rat) : ((scale c q).toNat : Int) = ⌊(c : Rat) * q⌋ % 256 := by
  rw [scale, BitVec.toNat_ofInt, floorProduct_eq_floor]
  exact Int.toNat_of_nonneg (Int.emod_nonneg _ (by decide))

/-- A product whose floor is a byte is not reduced. -/
theorem toNat_scale_of_floor_le {c : Int} {q : Rat} (h0 : 0 ≤ ⌊(c : Rat) * q⌋)
    (h1 : ⌊(c : Rat) * q⌋ ≤ 255) : ((scale c q).toNat : Int) = ⌊(c : Rat) * q⌋ := by
  rw [toNat_scale, Int.emod_eq_of_lt h0 (by omega)]

theorem toNat_scale_one (c : Int) : ((scale c 1).toNat : Int) = c % 256 := by
  rw [toNat_scale, mul_one, Int.floor_intCast]

/-- Intensity 0 scales every channel to 0 (40 R98). -/
theorem scale_intensity_zero (c : Int) : scale c 0 = 0#8 := by
  simp [scale, floorProduct]

theorem toNat_mul_toNat_lt (c : BitVec 8) (i : BitVec 32) : c.toNat * i.toNat < 2 ^ 40 :=
  calc c.toNat * i.toNat < 2 ^ 8 * 2 ^ 32 := Nat.mul_lt_mul'' c.isLt i.isLt
    _ = 2 ^ 40 := by norm_num

/-- SCALE by the intensity a packet's word stands for (40 R92). -/
theorem toNat_scale_mkRat (c i : Nat) :
    (scale c (mkRat i 65536)).toNat = (c * i) >>> 16 &&& 0xFF := by
  have hproduct : ((c : Int) : Rat) * mkRat i 65536 = ((c * i : Nat) : Rat) / (65536 : Nat) := by
    rw [Rat.mkRat_eq_div]
    push_cast
    ring
  have hscale := toNat_scale c (mkRat i 65536)
  rw [hproduct, Rat.floor_natCast_div_natCast] at hscale
  rw [Nat.shiftRight_eq_div_pow, Nat.and_two_pow_sub_one_eq_mod _ 8]
  exact_mod_cast hscale

theorem scale_mono {c d : Int} {q : Rat} (hq : 0 ≤ q) (hc : 0 ≤ c) (hcd : c ≤ d)
    (hd : ⌊(d : Rat) * q⌋ ≤ 255) : (scale c q).toNat ≤ (scale d q).toNat := by
  have hnonneg : 0 ≤ ⌊(c : Rat) * q⌋ := Int.floor_nonneg.mpr (mul_nonneg (by exact_mod_cast hc) hq)
  have hle : ⌊(c : Rat) * q⌋ ≤ ⌊(d : Rat) * q⌋ := by gcongr
  have hscale_c := toNat_scale_of_floor_le hnonneg (hle.trans hd)
  have hscale_d := toNat_scale_of_floor_le (hnonneg.trans hle) hd
  omega

/-! ## Joined bit strings -/

theorem append_inj_iff {a b : Nat} {x x' : BitVec a} {y y' : BitVec b} :
    x ++ y = x' ++ y' ↔ x = x' ∧ y = y' := by
  constructor
  · intro h
    have hhigh := congrArg (BitVec.extractLsb' b a) h
    have hlow := congrArg (BitVec.extractLsb' 0 b) h
    rw [BitVec.extractLsb'_append_eq_left, BitVec.extractLsb'_append_eq_left] at hhigh
    rw [field_low, field_low] at hlow
    exact ⟨hhigh, hlow⟩
  · rintro ⟨rfl, rfl⟩
    rfl

theorem byte_eq_pairs (v : Byte) :
    v.extractLsb' 6 2 ++ v.extractLsb' 4 2 ++ v.extractLsb' 2 2 ++ v.extractLsb' 0 2 = v := by
  rw [BitVec.extractLsb'_append_extractLsb'_eq_extractLsb' (by rfl),
    BitVec.extractLsb'_append_extractLsb'_eq_extractLsb' (by rfl),
    BitVec.extractLsb'_append_extractLsb'_eq_extractLsb' (by rfl)]
  exact BitVec.extractLsb'_eq_self

theorem joinedPairs_eq_iff (g0 g1 g2 g3 : BitVec 2) (v : Byte) : g0 ++ g1 ++ g2 ++ g3 = v ↔
    g0 = v.extractLsb' 6 2 ∧ g1 = v.extractLsb' 4 2 ∧ g2 = v.extractLsb' 2 2 ∧ g3 = v.extractLsb' 0 2 := by
  conv_lhs => rw [← byte_eq_pairs v]
  simp only [append_inj_iff, and_assoc]

theorem stream_eq_bytes (w : BitVec 40) :
    w.extractLsb' 32 8 ++ w.extractLsb' 24 8 ++ w.extractLsb' 16 8 ++ w.extractLsb' 8 8
      ++ w.extractLsb' 0 8 = w := by
  rw [BitVec.extractLsb'_append_extractLsb'_eq_extractLsb' (by rfl),
    BitVec.extractLsb'_append_extractLsb'_eq_extractLsb' (by rfl),
    BitVec.extractLsb'_append_extractLsb'_eq_extractLsb' (by rfl),
    BitVec.extractLsb'_append_extractLsb'_eq_extractLsb' (by rfl)]
  exact BitVec.extractLsb'_eq_self

/-! ## The Standard code and its decoder (40 R94, R101) -/

theorem invLut_lut (g : BitVec 2) : invLut (lut g) = some g := by
  revert g
  decide

theorem eq_lut_of_invLut {b : Byte} {g : BitVec 2} (h : invLut b = some g) : b = lut g := by
  unfold invLut at h
  split at h <;> cases h <;> exact BitVec.eq_of_toNat_eq ‹_›

theorem decStd_encStd (v : Byte) : decStd (encStd v) = some v := by
  simp only [decStd, encStd, invLut_lut]
  exact congrArg some (byte_eq_pairs v)

theorem eq_encStd_of_decStd {bs : List Byte} {v : Byte} (h : decStd bs = some v) : bs = encStd v := by
  unfold decStd at h
  split at h
  next b0 b1 b2 b3 =>
    split at h
    next g0 g1 g2 g3 h0 h1 h2 h3 =>
      obtain ⟨rfl, rfl, rfl, rfl⟩ := (joinedPairs_eq_iff g0 g1 g2 g3 v).mp (Option.some.inj h)
      rw [eq_lut_of_invLut h0, eq_lut_of_invLut h1, eq_lut_of_invLut h2, eq_lut_of_invLut h3, encStd]
    next => cases h
  next => cases h

theorem decStd_eq_some_iff (bs : List Byte) (v : Byte) : decStd bs = some v ↔ bs = encStd v :=
  ⟨eq_encStd_of_decStd, fun h => h ▸ decStd_encStd v⟩

theorem encStd_injective : Function.Injective encStd := fun v w h =>
  Option.some.inj ((decStd_encStd v).symm.trans (h ▸ decStd_encStd w))

/-- A table byte in the two bits it stands for (40 R94). -/
theorem lut_eq_byteFormula (g : BitVec 2) :
    lut g = BitVec.ofNat 8 (0x11 + 0x20 * (g.getLsbD 1).toNat + 0x02 * (g.getLsbD 0).toNat) := by
  revert g
  decide

theorem getElem?_encStd (v : Byte) {k : Nat} (hk : k < 4) :
    (encStd v)[k]? = some (BitVec.ofNat 8 (0x11 + 0x20 * (v.getLsbD (7 - 2 * k)).toNat
      + 0x02 * (v.getLsbD (6 - 2 * k)).toNat)) := by
  have hplace : (encStd v)[k]? = some (lut (v.extractLsb' (6 - 2 * k) 2)) := by
    interval_cases k <;> rfl
  have hbit : 6 - 2 * k + 1 = 7 - 2 * k := by omega
  simp only [hplace, lut_eq_byteFormula, BitVec.getLsbD_extractLsb', hbit]
  rfl

/-! ## The Extended code as a symbol stream (40 R95) -/

/-- Five bytes are a code exactly if they join to its symbol stream. -/
theorem eq_encExt_iff (b0 b1 b2 b3 b4 v : Byte) :
    [b0, b1, b2, b3, b4] = encExt v ↔ b0 ++ b1 ++ b2 ++ b3 ++ b4 = symbolStream v := by
  rw [← stream_eq_bytes (symbolStream v)]
  simp only [append_inj_iff, encExt, List.cons.injEq, and_true, and_assoc]

theorem extractLsb'_symbolStream (v : Byte) {k : Nat} (hk : k < 8) :
    (symbolStream v).extractLsb' (5 * k) 5 = symbol (v.getLsbD k) := by
  refine BitVec.eq_of_getLsbD_eq fun i hi => ?_
  rw [BitVec.getLsbD_extractLsb', decide_eq_true hi, Bool.true_and, getLsbD_symbolStream v (by omega),
    Nat.mul_add_div (by decide), Nat.div_eq_of_lt hi, Nat.mul_add_mod, Nat.mod_eq_of_lt hi, Nat.add_zero]

/-- A stream is a value's symbol stream exactly if its eight symbols are those of the value's bits. -/
theorem eq_symbolStream_iff (w : BitVec 40) (v : Byte) :
    w = symbolStream v ↔ ∀ k < 8, w.extractLsb' (5 * k) 5 = symbol (v.getLsbD k) := by
  constructor
  · rintro rfl k hk
    exact extractLsb'_symbolStream v hk
  · intro h
    refine BitVec.eq_of_getLsbD_eq fun n hn => ?_
    rw [getLsbD_symbolStream v hn, ← h (n / 5) (by omega), BitVec.getLsbD_extractLsb',
      decide_eq_true (Nat.mod_lt n (by decide)), Bool.true_and, Nat.div_add_mod]

/-! ## The Extended decoder (40 R102) -/

theorem invSymbol_eq_some_iff (s : BitVec 5) (bit : Bool) : invSymbol s = some bit ↔ s = symbol bit := by
  revert s bit
  decide

/-- The source bit just decoded is the lowest bit of the value. -/
theorem getLsbD_shiftIn_zero (v : Byte) (bit : Bool) :
    (v <<< 1 ||| (BitVec.ofBool bit).setWidth 8).getLsbD 0 = bit := by
  simp

/-- The bits decoded before move up by one. -/
theorem getLsbD_shiftIn_succ (v : Byte) (bit : Bool) {i : Nat} (hi : i + 1 < 8) :
    (v <<< 1 ||| (BitVec.ofBool bit).setWidth 8).getLsbD (i + 1) = v.getLsbD i := by
  simp [hi, -BitVec.getLsbD_eq_getElem]

theorem decSymbols_succ_eq_some_iff (w : BitVec 40) (v x : Byte) (n : Nat) :
    decSymbols w v (n + 1) = some x ↔ ∃ bit, w.extractLsb' (5 * n) 5 = symbol bit
      ∧ decSymbols w (v <<< 1 ||| (BitVec.ofBool bit).setWidth 8) n = some x := by
  simp only [← invSymbol_eq_some_iff]
  rw [decSymbols]
  cases invSymbol (w.extractLsb' (5 * n) 5) <;> simp

/-- Decoding the last `n` symbols behind `v` answers the value whose low `n` bits are the symbols' bits
and whose bits above them are those of `v`. -/
theorem decSymbols_eq_some_iff (w : BitVec 40) (x : Byte) {n : Nat} (hn : n ≤ 8) (v : Byte) :
    decSymbols w v n = some x ↔
      (∀ i, n + i < 8 → x.getLsbD (n + i) = v.getLsbD i)
        ∧ ∀ k < n, w.extractLsb' (5 * k) 5 = symbol (x.getLsbD k) := by
  induction n generalizing v with
  | zero =>
    simp only [decSymbols, Option.some.injEq, Nat.zero_add, Nat.not_lt_zero, false_implies,
      implies_true, and_true]
    exact ⟨fun h i _ => h ▸ rfl, fun h => (BitVec.eq_of_getLsbD_eq h).symm⟩
  | succ n ih =>
    have hplace (i : Nat) : n + 1 + i = n + (i + 1) := by omega
    simp only [decSymbols_succ_eq_some_iff, ih (by omega), Nat.forall_lt_succ_right, hplace]
    constructor
    · rintro ⟨bit, hsymbol, hhigh, hlow⟩
      have hbit := hhigh 0 (by omega)
      rw [getLsbD_shiftIn_zero, Nat.add_zero] at hbit
      refine ⟨fun i hi => ?_, hlow, hbit ▸ hsymbol⟩
      rw [hhigh (i + 1) hi, getLsbD_shiftIn_succ v bit (by omega)]
    · rintro ⟨hhigh, hlow, hsymbol⟩
      refine ⟨x.getLsbD n, hsymbol, fun i hi => ?_, hlow⟩
      cases i with
      | zero => rw [getLsbD_shiftIn_zero, Nat.add_zero]
      | succ i => rw [getLsbD_shiftIn_succ _ _ (by omega), hhigh i hi]

theorem decExt_eq_some_iff (bs : List Byte) (v : Byte) : decExt bs = some v ↔ bs = encExt v := by
  unfold decExt
  split
  next b0 b1 b2 b3 b4 =>
    rw [eq_encExt_iff, eq_symbolStream_iff, decSymbols_eq_some_iff _ v le_rfl]
    exact and_iff_right fun i hi => by omega
  next hlength => exact iff_of_false nofun fun h => hlength _ _ _ _ _ h

/-! ## The encoding of a colour (40 R98) -/

theorem encColor_black (cfg : Cfg) : encColor cfg ⟨0, 0, 0⟩ =
    encChannel cfg.variant 0#8 ++ encChannel cfg.variant 0#8 ++ encChannel cfg.variant 0#8 := by
  rw [encColor, scale_zero]

theorem encColor_of_intensity_zero {cfg : Cfg} (h : cfg.intensity = 0) (c : Color) :
    encColor cfg c = encColor cfg ⟨0, 0, 0⟩ := by
  rw [encColor_black, encColor, h, scale_intensity_zero, scale_intensity_zero, scale_intensity_zero]

/-! ## Settled -/

/-- Settles O13: the byte is the low 8 bits of the floor of the exact product. -/
theorem scaleIsFloorOfProductModulo256 : Obligations.ScaleIsFloorOfProductModulo256 := toNat_scale

/-- Settles O14: the floor of a packet's product is a shift, and the floor is monotone. -/
theorem scaleIsExactFixedPoint : Obligations.ScaleIsExactFixedPoint :=
  ⟨fun c i => ⟨toNat_mul_toNat_lt c i, toNat_scale_mkRat c.toNat i.toNat⟩, toNat_scale_one,
    fun _ _ _ => scale_mono⟩

/-- Settles O17: the decoder inverts the encoder, whose bytes all stand in the table. -/
theorem standardDecoderInvertsTheEncoder : Obligations.StandardDecoderInvertsTheEncoder :=
  ⟨decStd_eq_some_iff, fun _ ⟨_, hmem, hbad⟩ => Option.eq_none_iff_forall_ne_some.mpr fun _ h =>
    hbad (mem_encStd (eq_encStd_of_decStd h ▸ hmem))⟩

/-- Settles O18: the decoder inverts the encoder, which makes no zero byte. -/
theorem extendedDecoderInvertsTheEncoder : Obligations.ExtendedDecoderInvertsTheEncoder := by
  refine ⟨decExt_eq_some_iff, Option.eq_none_iff_forall_ne_some.mpr fun v h => zero_not_mem_encExt v ?_⟩
  rw [← (decExt_eq_some_iff _ v).mp h]
  exact List.mem_cons_self

/-- Settles O15: the decoder gives injectivity, the table the bytes. -/
theorem standardEncodingLaws : Obligations.StandardEncodingLaws :=
  ⟨length_encChannel .standard, fun _ _ h => encStd_injective h, fun _ _ => mem_encStd,
    fun v _ => getElem?_encStd v⟩

/-- Settles O19: the order and the encoder are the definition's; a channel scaled by 0 is a channel 0. -/
theorem colorIsEncodedGreenRedBlue : Obligations.ColorIsEncodedGreenRedBlue := by
  refine ⟨fun _ _ _ _ => rfl, fun _ => ⟨rfl, rfl⟩, length_encColor,
    fun _ c h => encColor_of_intensity_zero h c, fun cfg hv => ?_, fun cfg hv => ?_, by decide, by decide⟩
  · rw [encColor_black, hv]
    decide
  · rw [encColor_black, hv]
    decide

end Sys2Proof.Machine
end

section
/-! SUPPORT. The proofs about the frame buffer (spec 41_frame_buffer): FILL's bytes and its frame, PAD as
the loop of one-byte writes, FILL_AND_PAD as one frame whatever the buffer held, and what a FILL leaves to
a SHOW after it. -/

namespace Sys2Proof.Machine

/-! ## One byte after a write -/

theorem Memory.peek_overwrite_of_written {m : Memory} {addr a : Nat} {bs : List Byte} (ha : addr ≤ a)
    (hlt : a < addr + bs.length) (hsize : addr + bs.length ≤ m.size) :
    (m.overwrite addr bs).peek a = bs[a - addr]? := by
  have hj : a - addr < bs.length := by omega
  rw [Memory.peek_eq, Memory.overwrite_size, Memory.overwrite_lookup, if_pos (by omega), if_pos ⟨ha, hlt⟩,
    List.getD_eq_getElem _ _ hj, List.getElem?_eq_getElem hj]

theorem Memory.peek_overwrite_of_disjoint (m : Memory) {addr a : Nat} {bs : List Byte}
    (h : a < addr ∨ addr + bs.length ≤ a) : (m.overwrite addr bs).peek a = m.peek a := by
  have hout : ¬(addr ≤ a ∧ a < addr + bs.length) := by omega
  rw [Memory.peek_eq, Memory.peek_eq, Memory.overwrite_size, Memory.overwrite_lookup, if_neg hout]

/-! ## FILL (41 R111, R112) -/

theorem slotOffset_add (v : Variant) (k n : Nat) : slotOffset v (k + n) = slotOffset v k + n * bpl v :=
  Nat.add_mul ..

/-- FILL's check needs nothing of the buffer. -/
theorem Driver.fill_of_overflow {d : Driver} {cs : List Color} {k : Nat}
    (h : d.cfg.ledCount < k + cs.length) : d.fill cs k = .error (.raised .overflowError) :=
  if_pos h

/-- The bytes of the slots FILL names are its colours'. -/
theorem Driver.filled_peek {d : Driver} {cs : List Color} {k i j : Nat} {c : Color}
    (hs : d.tb.size = d.cfg.length) (hfit : k + cs.length ≤ d.cfg.ledCount) (hc : cs[i]? = some c)
    (hj : j < bpl d.cfg.variant) :
    (d.filled cs k).tb.peek (slotOffset d.cfg.variant (k + i) + j) = (encColor d.cfg c)[j]? := by
  have hi : i < cs.length := (List.getElem?_eq_some_iff.mp hc).1
  have hslot : k + i < d.cfg.ledCount := by omega
  exact (Driver.peek_slot (d := d.filled cs k) hs hslot hj).trans
    (congrArg (·[j]?) (d.filled_slotBytes cs k i c hc))

/-- FILL changes no byte outside its slots. -/
theorem Driver.filled_peek_other (d : Driver) {cs : List Color} {k a : Nat}
    (h : a < slotOffset d.cfg.variant k ∨ slotOffset d.cfg.variant (k + cs.length) ≤ a) :
    (d.filled cs k).tb.peek a = d.tb.peek a := by
  rw [slotOffset_add, ← length_encColors] at h
  exact d.tb.peek_overwrite_of_disjoint h

/-! ## PAD (41 R115) -/

/-- The loop is one write of all its bytes. -/
theorem padLoop_eq (off : Byte) {a n : Nat} {m : Memory} (hm : m.wf) (h : a + n ≤ m.size) :
    padLoop off a n m = .ok (m.overwrite a (List.replicate n off)) := by
  induction n generalizing a m with
  | zero => rw [padLoop, List.replicate_zero, Memory.overwrite_nil hm (by omega)]
  | succ n ih =>
    have hfirst : a + [off].length ≤ m.size := by rw [List.length_singleton]; omega
    have hwrite : m.write a [off] = .ok (m.overwrite a [off]) := (Memory.write_ok_iff ..).mpr ⟨hfirst, rfl⟩
    have hrest : a + 1 + n ≤ m.size := by omega
    have hjoin : (m.overwrite a [off]).overwrite (a + 1) (List.replicate n off)
        = m.overwrite a ([off] ++ List.replicate n off) :=
      Memory.overwrite_overwrite hm (by rw [List.length_replicate]; exact hrest)
    simp only [padLoop, hwrite]
    rw [ih (Memory.overwrite_wf hm hfirst) hrest, hjoin]
    rfl

/-- The bytes from a slot to the end. -/
theorem Cfg.length_sub_slotOffset (cfg : Cfg) (k : Nat) :
    cfg.length - slotOffset cfg.variant k = (cfg.ledCount - k) * bpl cfg.variant :=
  (Nat.sub_mul ..).symm

theorem Cfg.slotOffset_le_length (cfg : Cfg) {k : Nat} (h : k ≤ cfg.ledCount) :
    slotOffset cfg.variant k ≤ cfg.length :=
  Nat.mul_le_mul_right _ h

theorem Driver.padded_tb (d : Driver) (k : Nat) :
    (d.padded k).tb = d.tb.overwrite (slotOffset d.cfg.variant k)
      (List.replicate (d.cfg.length - slotOffset d.cfg.variant k) (offByte d.cfg.variant)) := by
  rw [Cfg.length_sub_slotOffset]
  rfl

/-! ## FILL_AND_PAD (41 R116) -/

/-- The driver after a frame depends on the configuration only. -/
theorem Driver.framed_eq_of_cfg_eq {d e : Driver} {m n : Nat} {cs : List Color} (hd : d.wf m) (he : e.wf n)
    (hcfg : e.cfg = d.cfg) (hfit : cs.length ≤ d.cfg.ledCount) : e.framed cs = d.framed cs := by
  obtain ⟨-, -, hsize, hwf, hrb⟩ := hd
  obtain ⟨-, -, hsize', hwf', hrb'⟩ := he
  rw [hcfg] at hsize' hrb'
  have htb : e.tb.overwrite 0 (frameOf d.cfg cs) = d.tb.overwrite 0 (frameOf d.cfg cs) :=
    Memory.overwrite_all_eq hwf' hwf (hsize'.trans hsize.symm) ((length_frameOf _ _ hfit).trans hsize'.symm)
  rw [Driver.framed, Driver.framed, hcfg, htb, hrb, hrb']

/-! ## A SHOW after a FILL (70 R182) -/

/-- Two states whose next sends are answered alike and leave the same log. -/
structure State.SameTransport (t s : State) : Prop where
  txlog : t.txlog = s.txlog
  answers : t.answers = s.answers
  sends : t.sends = s.sends

theorem State.SameTransport.answer_eq {t s : State} (h : t.SameTransport s) (k : Nat) :
    t.answer k = s.answer k := by
  simp only [State.answer, h.answers, h.sends]

theorem State.SameTransport.logSend {t s : State} (h : t.SameTransport s) (bs : List Byte) :
    (t.logSend bs).SameTransport (s.logSend bs) where
  txlog := by rw [State.logSend_txlog, State.logSend_txlog, h.txlog, h.answer_eq]
  answers := congrArg List.tail h.answers
  sends := congrArg (· + 1) h.sends

/-- The same buffers sent make the same log. -/
theorem State.SameTransport.sendAll_txlog {t s : State} (h : t.SameTransport s) (bufs : List (List Byte)) :
    (sendAll bufs t).1.txlog = (sendAll bufs s).1.txlog := by
  induction bufs generalizing t s with
  | nil => exact h.txlog
  | cons b bufs ih =>
    have hsent := h.logSend b
    simp only [sendAll, txSend, h.answer_eq]
    cases s.answer 0 with
    | ok => exact ih hsent
    | failed => exact hsent.txlog

/-- SHOW's log is that of its sends. -/
theorem State.transmit_txlog (s : State) (d : Driver) (bufs : List (List Byte)) :
    (s.transmit d bufs).txlog = (sendAll bufs { s with driver := some d }).1.txlog := by
  unfold State.transmit
  split <;> rename_i heq <;> rw [heq] <;> rfl

theorem State.SameTransport.transmit_txlog {t s : State} (h : t.SameTransport s) (d : Driver)
    (bufs : List (List Byte)) : (t.transmit d bufs).txlog = (s.transmit d bufs).txlog := by
  have hsame : State.SameTransport { t with driver := some d } { s with driver := some d } :=
    ⟨h.txlog, h.answers, h.sends⟩
  rw [State.transmit_txlog, State.transmit_txlog, hsame.sendAll_txlog]

theorem execFill_sameTransport {s t : State} {cs : List Color} {k : Nat} (hi : s.Inv)
    (h : execFill cs k s = .next t) : t.SameTransport s := by
  cases hd : s.driver with
  | none =>
    rw [execFill_none cs k hd, Host.Outcome.next.injEq] at h
    subst h
    exact ⟨rfl, rfl, rfl⟩
  | some d =>
    rw [execFill_eq s d cs k hi hd, Host.Outcome.next.injEq] at h
    subst h
    split <;> exact ⟨rfl, rfl, rfl⟩

theorem Driver.afterFill_cfg (d : Driver) (cs : List Color) (k : Nat) : (d.afterFill cs k).cfg = d.cfg := by
  unfold Driver.afterFill
  split <;> rfl

/-- Two SHOWs of the same colours, from drivers of one configuration. -/
theorem execShowFrame_of_sameTransport {s t : State} {d e : Driver} (cs : List Color) (hs : s.Inv)
    (ht : t.Inv) (hsame : t.SameTransport s) (hd : s.driver = some d) (he : t.driver = some e)
    (hcfg : e.cfg = d.cfg) :
    ∃ u u', execShowFrame cs s = .next u ∧ execShowFrame cs t = .next u' ∧ u'.txlog = u.txlog
      ∧ (cs.length ≤ d.cfg.ledCount → u'.driver = u.driver) := by
  refine ⟨_, _, execShowFrame_eq s d cs hs hd, execShowFrame_eq t e cs ht he, ?_⟩
  rw [hcfg]
  by_cases hfit : cs.length ≤ d.cfg.ledCount
  · rw [if_neg (by omega), if_neg (by omega), Driver.framed_eq_of_cfg_eq (hs.2.2 d hd) (ht.2.2 e he) hcfg hfit]
    exact ⟨hsame.transmit_txlog _ _, fun _ => by rw [(t.transmit_frame _ _).1, (s.transmit_frame _ _).1]⟩
  · rw [if_pos (by omega), if_pos (by omega)]
    exact ⟨hsame.txlog, fun h => absurd h hfit⟩

/-! ## Settled -/

/-- Settles O22: a FILL that fits is one write of its slots, and the other two end at a check. -/
theorem fillWritesItsSlotsAndNothingElse : Obligations.FillWritesItsSlotsAndNothingElse := by
  intro s colors k hi
  refine ⟨fun hnone => execFill_none colors k hnone, fun d hd hover => ?_, fun d hd hfit => ?_⟩
  · have hexec := execFill_eq s d colors k hi hd
    rwa [if_pos hover] at hexec
  · obtain ⟨-, -, hsize, -, -⟩ := hi.2.2 d hd
    have hexec := execFill_eq s d colors k hi hd
    rw [if_neg (by omega)] at hexec
    have hpeek : s.peek = d.tb.peek := by funext a; rw [State.peek, hd]
    exact ⟨_, hexec, rfl, fun i c hc j hj => Driver.filled_peek hsize hfit hc hj,
      fun a ha => (d.filled_peek_other ha).trans (congrFun hpeek a).symm, ⟨_, rfl, rfl, rfl, rfl⟩,
      rfl, rfl, rfl, rfl, rfl⟩

/-- Settles O24: both are one write of OFF from slot `k` to the end. -/
theorem padIsTheByteLoop : Obligations.PadIsTheByteLoop := by
  intro d n k hd hk
  obtain ⟨-, -, hsize, hwf, -⟩ := hd
  have hle := d.cfg.slotOffset_le_length hk
  refine ⟨d.padded k, Driver.pad_eq d k hsize hk, ?_, rfl, rfl, fun a ha hlt => ?_, fun a ha => ?_⟩
  · rw [padLoop_eq _ hwf (by omega), Driver.padded_tb]
  · rw [Driver.padded_tb, Memory.peek_overwrite_of_written ha, List.getElem?_replicate, if_pos (by omega)] <;>
      rw [List.length_replicate] <;> omega
  · exact d.tb.peek_overwrite_of_disjoint (.inl ha)

/-- Settles O25: FILL_AND_PAD is FILL's check and then one write of the whole buffer. -/
theorem fillAndPadWritesTheWholeFrame : Obligations.FillAndPadWritesTheWholeFrame := by
  intro d colors
  refine ⟨fun hover => ?_, fun e n hd he hcfg hfit => ?_⟩
  · rw [Driver.fillAndPad, Driver.fill_of_overflow (by omega)]
  · have hsame := Driver.framed_eq_of_cfg_eq hd he hcfg hfit
    obtain ⟨-, -, hsize, hwf, -⟩ := hd
    obtain ⟨-, -, hsize', hwf', -⟩ := he
    exact ⟨d.framed colors, e.framed colors, d.fillAndPad_eq colors hsize hwf hfit,
      e.fillAndPad_eq colors hsize' hwf' (hcfg ▸ hfit), congrArg Driver.tb hsame, rfl, rfl,
      d.framed_bytes colors hsize hfit⟩

/-- Settles O34: FILL leaves the transport and the configuration, which are all that a SHOW reads. -/
theorem fillNeverReachesTheWire : Obligations.FillNeverReachesTheWire := by
  intro s t fillColors colors k hi h
  have hsame := execFill_sameTransport hi h
  have hdriver := execFill_driver hi h
  refine ⟨hsame.txlog, ?_⟩
  cases hd : s.driver with
  | none =>
    rw [hd, Option.map_none] at hdriver
    exact ⟨_, _, execShowFrame_none colors hd, execShowFrame_none colors hdriver, hsame.txlog, nofun⟩
  | some d =>
    rw [hd, Option.map_some] at hdriver
    obtain ⟨u, u', hu, hu', htx, hdrivers⟩ := execShowFrame_of_sameTransport colors hi (exec_inv hi h) hsame
      hd hdriver (d.afterFill_cfg fillColors k)
    exact ⟨u, u', hu, hu', htx, fun _ hd' => Option.some.inj hd' ▸ hdrivers⟩

end Sys2Proof.Machine
end

section
/-! SUPPORT. The proofs about the driver (spec 42_driver): CONFIGURE and SHOW with legal operands, how
their sends can end, and what one send and one step are. -/

namespace Sys2Proof.Machine

/-! ## One send (R134) -/

theorem State.logSend_txlog_of_ok {s : State} (bs : List Byte) (h : s.answer 0 = .ok) :
    (s.logSend bs).txlog = s.txlog ++ [.sent bs] := by
  rw [State.logSend_txlog, h, txEvent]

theorem State.logSend_txlog_of_failed {s : State} (bs : List Byte) (h : s.answer 0 = .failed) :
    (s.logSend bs).txlog = s.txlog ++ [.failed bs] := by
  rw [State.logSend_txlog, h, txEvent]

theorem State.leftAfterSends.logSend {t s : State} {n : Nat} (h : t.leftAfterSends s n) (bs : List Byte) :
    (t.logSend bs).leftAfterSends s (n + 1) := by
  obtain ⟨hsends, hanswers⟩ := h
  exact ⟨congrArg (· + 1) hsends, by rw [State.logSend_answers, hanswers, List.tail_drop]⟩

/-! ## Commands with legal operands (R126, R128) -/

theorem execConfigure_of_legal {s : State} {n : Int} (q : Rat) (v : Variant) (hnone : s.driver = none)
    (hpos : 1 ≤ n) (hle : n ≤ s.maxLeds) :
    execConfigure n q v s = .next (s.commission ((Driver.allocate n.toNat q v).framed [])
      (frameBuffers v (List.replicate (n.toNat * bpl v) (offByte v)))) := by
  rw [execConfigure_eq s n q v hnone, if_neg (by omega)]
  rfl

theorem execConfigure_of_illegal {s : State} {n : Int} (q : Rat) (v : Variant) (hnone : s.driver = none)
    (h : n ≤ 0 ∨ (s.maxLeds : Int) < n) : execConfigure n q v s = .next (s.raise .configurationError) := by
  rw [execConfigure_eq s n q v hnone, if_pos h]

theorem execShowFrame_of_fits {s : State} {d : Driver} {cs : List Color} (hi : s.Inv)
    (hd : s.driver = some d) (hfit : cs.length ≤ d.cfg.ledCount) :
    execShowFrame cs s
      = .next (s.transmit (d.framed cs) (frameBuffers d.cfg.variant (frameOf d.cfg cs))) := by
  rw [execShowFrame_eq s d cs hi hd, if_neg (by omega)]

/-- A command that came to its sends does not answer ConfigurationError. -/
theorem frameResponse_ne_configurationError (a : SendAnswer) :
    frameResponse a ≠ errorResponse .configurationError := by
  cases a <;> decide

/-! ## The two ways the sends of a frame can fail (R128, 60 R148) -/

/-- From `s` to `t` the sends `new` were made and TransportError was answered; no other field but the
driver may have changed. -/
structure State.FailedAfter (t s : State) (new : List TxEvent) : Prop where
  responses : t.responses = s.responses ++ [errorResponse .transportError]
  txlog : t.txlog = s.txlog ++ new
  cmdIn : t.cmdIn = s.cmdIn
  maxLeds : t.maxLeds = s.maxLeds
  left : t.leftAfterSends s new.length

theorem State.failedAfter_frame {s : State} (frame : List Byte) (h : s.answer 0 = .failed) :
    ((s.logSend frame).raise .transportError).FailedAfter s [.failed frame] := by
  have hleft : s.leftAfterSends s 0 := ⟨rfl, rfl⟩
  exact ⟨rfl, State.logSend_txlog_of_failed frame h, rfl, rfl, hleft.logSend frame⟩

theorem State.failedAfter_reset {s : State} (frame : List Byte) (h : s.answer 0 = .ok)
    (h' : s.answer 1 = .failed) :
    (((s.logSend frame).logSend resetBytes).raise .transportError).FailedAfter s
      [.sent frame, .failed resetBytes] := by
  have hleft : s.leftAfterSends s 0 := ⟨rfl, rfl⟩
  have hnext : (s.logSend frame).answer 0 = .failed := (s.answer_logSend frame 0).trans h'
  refine ⟨rfl, ?_, rfl, rfl, (hleft.logSend frame).logSend resetBytes⟩
  rw [State.raise_txlog, State.logSend_txlog_of_failed _ hnext, State.logSend_txlog_of_ok _ h,
    List.append_assoc, List.singleton_append]

/-! ## Settled -/

/-- Settles O28: a legal count leads to the sends, and no answer of theirs is ConfigurationError. -/
theorem configureRejectsABadLedCount : Obligations.ConfigureRejectsABadLedCount := by
  intro s n q v hphase
  have hnone := s.phase_unconfigured_iff.mp hphase
  refine ⟨fun h => ?_, execConfigure_of_illegal q v hnone⟩
  by_contra hlegal
  obtain ⟨a, new, -, hx⟩ := s.commission_exchange ((Driver.allocate n.toNat q v).framed []) v
    (List.replicate (n.toNat * bpl v) (offByte v))
  rw [exec_configure, execConfigure_of_legal q v hnone (by omega) (by omega), Host.Outcome.next.injEq] at h
  exact frameResponse_ne_configurationError a ((hx.responses_eq_iff _).mp (congrArg State.responses h))

/-- Settles O29: in both cases the driver is still absent when the failed send ends the command. -/
theorem configureWithAFailedSendLeavesNoInstance : Obligations.ConfigureWithAFailedSendLeavesNoInstance := by
  intro s n q v hphase hpos hle
  have hexec := execConfigure_of_legal q v (s.phase_unconfigured_iff.mp hphase) hpos hle
  refine ⟨fun hframe => ?_, ?_⟩
  · rw [State.commission_frame_failed _ _ _ _ hframe] at hexec
    obtain ⟨hresp, htx, hcmd, hmax, hleft⟩ := State.failedAfter_frame _ hframe
    exact ⟨_, hexec, hphase, hresp, htx, hcmd, hmax, hleft⟩
  · rintro rfl hframe hreset
    rw [State.commission_reset_failed _ _ _ hframe hreset] at hexec
    obtain ⟨hresp, htx, hcmd, hmax, hleft⟩ := State.failedAfter_reset _ hframe hreset
    exact ⟨_, hexec, hphase, hresp, htx, hcmd, hmax, hleft⟩

/-- Settles O30: the buffer is written over with the frame, and the frame is what is sent. -/
theorem showSendsExactlyItsFrame : Obligations.ShowSendsExactlyItsFrame := by
  intro s d colors hi hd hfit hsends
  obtain ⟨-, -, hsize, -, -⟩ := hi.2.2 d hd
  have hexec := execShowFrame_of_fits hi hd hfit
  rw [State.transmit_ok _ _ _ _ hsends] at hexec
  have htx := State.sentAll_txlog (s := { s with driver := some (d.framed colors) }) (frameOf d.cfg colors) hsends
  obtain ⟨hdriver, hresp, hcmd, hmax⟩ :=
    State.sentAll_frame { s with driver := some (d.framed colors) } d.cfg.variant (frameOf d.cfg colors)
  exact ⟨_, d.framed colors, hexec, hdriver, d.framed_bytes colors hsize hfit, rfl, rfl, htx,
    congrArg (· ++ [okResponse 0]) hresp, hcmd, hmax, State.sentAll_leftAfterSends _ _ _⟩

/-- Settles O31: in both cases the new frame was written before the send that failed. -/
theorem showWithAFailedSendKeepsTheNewFrame : Obligations.ShowWithAFailedSendKeepsTheNewFrame := by
  intro s d colors hi hd hfit
  obtain ⟨-, -, hsize, -, -⟩ := hi.2.2 d hd
  have hbytes := d.framed_bytes colors hsize hfit
  have hexec := execShowFrame_of_fits hi hd hfit
  refine ⟨fun hframe => ?_, fun hv hframe hreset => ?_⟩
  · rw [State.transmit_frame_failed _ _ _ _ hframe] at hexec
    obtain ⟨hresp, htx, hcmd, hmax, hleft⟩ :=
      State.failedAfter_frame (s := { s with driver := some (d.framed colors) }) (frameOf d.cfg colors) hframe
    exact ⟨_, d.framed colors, hexec, rfl, hbytes, rfl, rfl, htx, hresp, hcmd, hmax, hleft⟩
  · rw [hv, State.transmit_reset_failed _ _ _ hframe hreset] at hexec
    obtain ⟨hresp, htx, hcmd, hmax, hleft⟩ :=
      State.failedAfter_reset (s := { s with driver := some (d.framed colors) }) (frameOf d.cfg colors)
        hframe hreset
    exact ⟨_, d.framed colors, hexec, rfl, hbytes, rfl, rfl, htx, hresp, hcmd, hmax, hleft⟩

/-- Settles O9: the three cases of a step. -/
theorem stepRunsTheDecodedCommand : Obligations.StepRunsTheDecodedCommand :=
  ⟨fun _ _ _ _ => step_of_decode_ok, fun _ _ _ _ => step_of_decode_error, fun _ => step_of_cmdIn_nil⟩

/-- Settles O36: a send is one entry of the log, tagged with the answer returned. -/
theorem sendAppendsOneLogEntry : Obligations.SendAppendsOneLogEntry := fun _ bs =>
  ⟨rfl, State.logSend_txlog_of_ok bs, State.logSend_txlog_of_failed bs, rfl, rfl, rfl⟩

end Sys2Proof.Machine
end

section
/-! SUPPORT. The proofs about the errors (spec 60_exceptions): how a command of any state ends, and what
too many colours answer. -/

namespace Sys2Proof.Machine

/-! ## Which word answers which end of a command (R82, R151) -/

theorem ErrorKind.code_injective : Function.Injective ErrorKind.code := by
  intro e e' h
  revert h
  cases e <;> cases e' <;> decide

theorem errorResponse_injective : Function.Injective errorResponse := by
  intro e e' h
  by_contra hne
  exact responseWord_ne _ _ (fun hcode => hne (ErrorKind.code_injective hcode)) h

theorem okResponse_ne_errorResponse (n : Nat) (e : ErrorKind) : okResponse n ≠ errorResponse e :=
  responseWord_ne _ _ (by cases e <;> decide)

/-- A command that came to its sends answers no error but TransportError. -/
theorem frameResponse_ne_errorResponse (a : SendAnswer) {e : ErrorKind} (he : e ≠ .transportError) :
    frameResponse a ≠ errorResponse e := by
  cases a with
  | ok => exact okResponse_ne_errorResponse 0 e
  | failed => exact fun h => he (errorResponse_injective h).symm

/-! ## How a command of any state ends (R151, R152) -/

theorem State.commission_responses (s : State) (d : Driver) (bufs : List (List Byte)) :
    (s.commission d bufs).responses = s.responses ++ [frameResponse (sendAll bufs s).2] := by
  obtain ⟨-, hresp, -, -, -⟩ := sendAll_frame bufs s
  rw [← hresp, State.commission]
  obtain ⟨s', a⟩ := sendAll bufs s
  cases a <;> rfl

/-- The sends of SHOW are answered as those of CONFIGURE; only the driver is set at another time. -/
theorem State.transmit_responses (s : State) (d : Driver) (bufs : List (List Byte)) :
    (s.transmit d bufs).responses = (State.commission { s with driver := some d } d bufs).responses := by
  rw [State.transmit, State.commission]
  obtain ⟨s', a⟩ := sendAll bufs { s with driver := some d }
  cases a <;> rfl

/-- The ends of a command: an error raised before any write or send, FILL's write done, or a frame's
sends made. -/
inductive CommandEnd (s : State) : State → Prop
  | raised (e : ErrorKind) : CommandEnd s (s.raise e)
  | written {t : State} (k : Nat) (h : t.responses = s.responses ++ [okResponse k]) : CommandEnd s t
  | sent {t : State} (a : SendAnswer) (h : t.responses = s.responses ++ [frameResponse a]) : CommandEnd s t

theorem execConfigure_end {s t : State} {n : Int} {q : Rat} {v : Variant}
    (h : execConfigure n q v s = .next t) : CommandEnd s t := by
  cases hd : s.driver with
  | some d =>
    rw [execConfigure_some n q v hd, Host.Outcome.next.injEq] at h
    exact h ▸ .raised _
  | none =>
    rw [execConfigure_eq s n q v hd, Host.Outcome.next.injEq] at h
    subst h
    split
    · exact .raised _
    · exact .sent _ (s.commission_responses _ _)

theorem execFill_end {s t : State} {cs : List Color} {k : Nat} (h : execFill cs k s = .next t) :
    CommandEnd s t := by
  unfold execFill at h
  split at h
  · cases h
    exact .raised _
  · split at h <;> cases h
    · exact .raised _
    · exact .written _ rfl

theorem execShowFrame_end {s t : State} {cs : List Color} (h : execShowFrame cs s = .next t) :
    CommandEnd s t := by
  unfold execShowFrame at h
  split at h
  · cases h
    exact .raised _
  · split at h
    · cases h
      exact .raised _
    · split at h <;> cases h
      · exact .raised _
      · exact .sent _ ((s.transmit_responses _ _).trans (State.commission_responses _ _ _))

theorem exec_end {i : Instr} {s t : State} (h : exec i s = .next t) : CommandEnd s t := by
  cases i with
  | configure n q v => exact execConfigure_end h
  | fill cs k => exact execFill_end h
  | showFrame cs => exact execShowFrame_end h

/-- Of the ends of a command only the one before any write or send answers such an error. -/
theorem CommandEnd.eq_raise {s t : State} {e : ErrorKind} (h : CommandEnd s t) (he : e ≠ .transportError)
    (hresp : t.responses = s.responses ++ [errorResponse e]) : t = s.raise e := by
  have answer_eq {w : Word} (hw : t.responses = s.responses ++ [w]) : w = errorResponse e := by
    simpa [hresp] using hw.symm
  cases h with
  | raised e' => rw [errorResponse_injective (answer_eq (s.raise_responses e'))]
  | written k hw => exact absurd (answer_eq hw) (okResponse_ne_errorResponse k e)
  | sent a hw => exact absurd (answer_eq hw) (frameResponse_ne_errorResponse a he)

/-! ## Too many colours (R147) -/

theorem execFill_of_overflow {s : State} {d : Driver} {cs : List Color} {k : Nat} (hd : s.driver = some d)
    (h : d.cfg.ledCount < k + cs.length) : execFill cs k s = .next (s.raise .overflowError) := by
  simp only [execFill, hd, Driver.fill_of_overflow h]

theorem execShowFrame_of_overflow {s : State} {d : Driver} {cs : List Color} (hd : s.driver = some d)
    (h : d.cfg.ledCount < cs.length) : execShowFrame cs s = .next (s.raise .overflowError) := by
  simp only [execShowFrame, hd, if_pos h]

/-! ## Settled -/

/-- Settles O43: every other end of a command answers OK or TransportError. -/
theorem errorsBeforeSendingChangeNothing : Obligations.ErrorsBeforeSendingChangeNothing :=
  fun _ _ _ _ he hexec hresp => (exec_end hexec).eq_raise he hresp

/-- Settles O23: the check stands before every write, so the driver need not be well-formed. -/
theorem tooManyColorsOverflow : Obligations.TooManyColorsOverflow := fun _ _ _ hd =>
  ⟨fun _ => execFill_of_overflow hd, execShowFrame_of_overflow hd⟩

end Sys2Proof.Machine
end

section
/-! SUPPORT. The proofs about hardware reset (spec 70_reset_and_hazards R170): a step ends no driver. -/

namespace Sys2Proof.Machine

/-- No step leaves the phase Ready: the driver it starts with keeps its configuration, so there is one. -/
theorem step_phase_ready {s t : State} (h : step s = .next t) (hready : s.phase = .ready) :
    t.phase = .ready := by
  obtain ⟨d, hd⟩ := s.phase_ready_iff.mp hready
  obtain ⟨-, hfixed, -⟩ := configurationIsFixedForLife s t h
  obtain ⟨d', hnew, -⟩ := hfixed d hd
  exact t.phase_ready_iff.mpr ⟨d', hnew⟩

theorem State.hardwareReset_phase (s : State) : s.hardwareReset.phase = .unconfigured :=
  s.hardwareReset.phase_unconfigured_iff.mpr s.hardwareReset_driver

/-- Settles O1: the two resets clear the driver and `TXLOG`, and a step keeps a driver's configuration
(O41), so it keeps the driver. -/
theorem resetAloneEndsAnInstance : Obligations.ResetAloneEndsAnInstance :=
  ⟨rfl, rfl, rfl, fun s => ⟨s.hardwareReset_phase, s.hardwareReset_driver, s.hardwareReset_txlog⟩,
    fun _ _ => step_phase_ready⟩

end Sys2Proof.Machine
end
